-- ==== Sys2Proof/Word.lean ====
section
/-! DEFINITION. The word types of tapehash_vm: bytes, byte sequences and instruction words. -/

namespace Sys2Proof

/-- A `Byte` is an unsigned integer in [0, 255] (R10). -/
abbrev Byte := BitVec 8

/-- `Bytes`: a finite sequence of bytes, indexed from 0 (R10). -/
abbrev Bytes := List Byte

/-- The spec's default of `CFG.ADDR_W`, the width of the operand field (R8, D11). -/
def defaultAddrWidth : Nat := 32

/-- An instruction word with an operand field of `n` bits above its 4 opcode bits (R90): `n` is `CFG.ADDR_W`, and
with its default 32 the word has the 36 bits of R62 and R90 (log entry 3). -/
abbrev InstrWord (n : Nat) := BitVec (n + 4)

/-- A 32-bit host-visible register value (R36, R37). -/
abbrev RegWord := BitVec 32

end Sys2Proof
end

