-- ==== Sys2Proof/Syntax.lean ====
section
/-! DEFINITION. The instruction set: one constructor per row of spec/opcode_table.json (R94). -/

namespace Sys2Proof

/-- An instruction is a pair (opcode, operand): the constructor is the opcode, its argument the operand,
an absolute unsigned tape index used as it stands (R90, R93). -/
inductive Instr where
  /-- Opcode 0 (R114). -/
  | ident (a : Nat)
  /-- Opcode 1 (R115). -/
  | dbl (a : Nat)
  /-- Opcode 2 (R116). -/
  | half (a : Nat)
  /-- Opcode 3, open (R117). -/
  | op3 (a : Nat)
  /-- Opcode 4 (R118). -/
  | inc (a : Nat)
  /-- Opcode 5 (R119). -/
  | dec (a : Nat)
  /-- Opcode 6, open (R120). -/
  | op6 (a : Nat)
  /-- Opcode 7 (R121). -/
  | quad (a : Nat)
  /-- Opcode 8, open (R122). -/
  | op8 (a : Nat)
  /-- Opcode 9 (R123). -/
  | nswap (a : Nat)
  /-- Opcode 10, open (R124). -/
  | op10 (a : Nat)
  /-- Opcode 11, open (R125). -/
  | op11 (a : Nat)
  /-- Opcode 12, open (R126). -/
  | op12 (a : Nat)
  /-- Opcode 13, open (R127). -/
  | op13 (a : Nat)
  /-- Opcode 14, open (R128). -/
  | op14 (a : Nat)
  /-- Opcode 15, open (R129). -/
  | op15 (a : Nat)
  deriving DecidableEq, Repr

end Sys2Proof
end

