-- ==== Sys2Proof/Decode.lean ====
section
/-! DEFINITION. The one instruction format, its decoder and its encoder (R90 to R92, R94, R99). -/

namespace Sys2Proof

/-- The operand field of an instruction (R90). -/
def Instr.operand : Instr → Nat
  | .ident a | .dbl a | .half a | .op3 a | .inc a | .dec a | .op6 a | .quad a
  | .op8 a | .nswap a | .op10 a | .op11 a | .op12 a | .op13 a | .op14 a | .op15 a => a

/-- The opcode number of an instruction (R94). -/
def Instr.opcode : Instr → Nat
  | .ident _ => 0
  | .dbl _ => 1
  | .half _ => 2
  | .op3 _ => 3
  | .inc _ => 4
  | .dec _ => 5
  | .op6 _ => 6
  | .quad _ => 7
  | .op8 _ => 8
  | .nswap _ => 9
  | .op10 _ => 10
  | .op11 _ => 11
  | .op12 _ => 12
  | .op13 _ => 13
  | .op14 _ => 14
  | .op15 _ => 15

/-- The instruction of the table entry that the 4-bit opcode field selects (R94): every value selects one
(R91, R96 (a)). -/
def Instr.ofFields (k : BitVec 4) (a : Nat) : Instr :=
  match k.toNat with
  | 0 => .ident a
  | 1 => .dbl a
  | 2 => .half a
  | 3 => .op3 a
  | 4 => .inc a
  | 5 => .dec a
  | 6 => .op6 a
  | 7 => .quad a
  | 8 => .op8 a
  | 9 => .nswap a
  | 10 => .op10 a
  | 11 => .op11 a
  | 12 => .op12 a
  | 13 => .op13 a
  | 14 => .op14 a
  | _ => .op15 a

/-- `w[3:0]` (R91). -/
def opcodeField (n : Nat) (w : InstrWord n) : BitVec 4 := w.extractLsb' 0 4

/-- The `n` bits of the word above its opcode: `w[35:4]` with the default width 32 (R91). -/
def operandField (n : Nat) (w : InstrWord n) : BitVec n := w.extractLsb' 4 n

/-- Decoding is total: `opcode = w[3:0]`, `operand` the `n` bits above it (R91, R192). -/
def decode (n : Nat) (w : InstrWord n) : Instr := Instr.ofFields (opcodeField n w) (operandField n w).toNat

/-- Decoding a word given by its value, as `PROG` holds it (log entry 3). -/
def decodeStored (n w : Nat) : Instr := decode n (BitVec.ofNat (n + 4) w)

/-- Why a number is no instruction word. A word itself is never refused (R91). -/
inductive DecodeError where
  /-- The number needs more bits than an instruction word has (R90). -/
  | widerThanAWord
  deriving DecidableEq, Repr

/-- Decoding a number: refused by name when it is the value of no word (R90), total otherwise (R91). -/
def decodeNumber (n w : Nat) : Except DecodeError Instr :=
  if w < 2 ^ (n + 4) then .ok (decodeStored n w) else .error .widerThanAWord

/-- The decoder on an instruction numbered as spec/opcode_table.json numbers it, with the default operand width:
`nbits` bits, `w` their value, every bit above them zero. A row of 36 bits counted in whole bytes has 40; a word with
one of the bits 39 to 36 set is no instruction word and is refused (log entry 19). -/
def decodeTableWord (nbits w : Nat) : Option Instr :=
  match decodeNumber defaultAddrWidth (w % 2 ^ nbits) with
  | .ok i => some i
  | .error _ => none

/-- The word of the pair (opcode `k`, operand `a`) is `a * 16 + k` (R90, R92). -/
def pairWord (n k a : Nat) : InstrWord n := BitVec.ofNat (n + 4) (a * 16 + k)

/-- The encoder (R92); the word stands for the instruction when it is well formed. -/
def encode (n : Nat) (i : Instr) : InstrWord n := pairWord n i.opcode i.operand

/-- The encoding of a pair of integers, for the pairs that have one (R92). -/
def encodePair (n : Nat) (k a : Int) : Option (InstrWord n) :=
  if 0 ≤ k ∧ k < 16 ∧ 0 ≤ a ∧ a < 2 ^ n then some (pairWord n k.toNat a.toNat) else none

/-- One row of spec/opcode_table.json as rule R99 reads it: a word is that instruction if and only if
`w & mask = pattern`. Neither depends on the operand width (D11). -/
structure TableRow where
  mnemonic : String
  pattern : Nat
  mask : Nat
  deriving DecidableEq, Repr

/-- A word matches a row (R99). -/
def TableRow.Matches (r : TableRow) {n : Nat} (w : InstrWord n) : Prop :=
  w &&& BitVec.ofNat (n + 4) r.mask = BitVec.ofNat (n + 4) r.pattern

/-- The opcode table (R94, R99), in the table's order. -/
def opcodeTable : List TableRow :=
  [⟨"IDENT", 0x000000000, 0x00000000F⟩, ⟨"DBL", 0x000000001, 0x00000000F⟩,
   ⟨"HALF", 0x000000002, 0x00000000F⟩, ⟨"OP3", 0x000000003, 0x00000000F⟩] ++
  [⟨"INC", 0x000000004, 0x00000000F⟩, ⟨"DEC", 0x000000005, 0x00000000F⟩,
   ⟨"OP6", 0x000000006, 0x00000000F⟩, ⟨"QUAD", 0x000000007, 0x00000000F⟩] ++
  [⟨"OP8", 0x000000008, 0x00000000F⟩, ⟨"NSWAP", 0x000000009, 0x00000000F⟩,
   ⟨"OP10", 0x00000000A, 0x00000000F⟩, ⟨"OP11", 0x00000000B, 0x00000000F⟩] ++
  [⟨"OP12", 0x00000000C, 0x00000000F⟩, ⟨"OP13", 0x00000000D, 0x00000000F⟩,
   ⟨"OP14", 0x00000000E, 0x00000000F⟩, ⟨"OP15", 0x00000000F, 0x00000000F⟩]

/-- The mnemonic of an instruction (R94, R98). -/
def Instr.mnemonic : Instr → String
  | .ident _ => "IDENT"
  | .dbl _ => "DBL"
  | .half _ => "HALF"
  | .op3 _ => "OP3"
  | .inc _ => "INC"
  | .dec _ => "DEC"
  | .op6 _ => "OP6"
  | .quad _ => "QUAD"
  | .op8 _ => "OP8"
  | .nswap _ => "NSWAP"
  | .op10 _ => "OP10"
  | .op11 _ => "OP11"
  | .op12 _ => "OP12"
  | .op13 _ => "OP13"
  | .op14 _ => "OP14"
  | .op15 _ => "OP15"

end Sys2Proof
end

