-- ==== Sys2Proof/Config.lean ====
section
/-! DEFINITION. The configuration record `CFG` (R5 to R9), its constraints (R7, R254), and the opaque
constants that stand for the values no source gives. The machine's own configuration, which joins these with
the defaults the spec decided (R8), is `Sys2Proof.Machine.cfg` in Machine/Configured.lean. -/

namespace Sys2Proof

/-- The hash variant (R27): 1, 2, 3 for tapehash1, tapehash2, tapehash3; 0 names no variant. -/
inductive Variant where
  | noVariant
  | tapehash1
  | tapehash2
  | tapehash3
  deriving DecidableEq, Repr

/-- The nine opcodes whose transform no source gives (R17, R94): 3, 6, 8, 10 to 15. -/
inductive OpenOpcode where
  | op3
  | op6
  | op8
  | op10
  | op11
  | op12
  | op13
  | op14
  | op15
  deriving DecidableEq, Repr

/-- `CFG`: every quantity that differs between builds or that the source leaves open (R5). It is not state:
no step writes it (R39). -/
structure Config where
  /-- `BASE_TAPE_SIZE` (R7, D1). -/
  baseTapeSize : Nat
  /-- `CS_DEFAULT[V]` (R7, D2); the value at `noVariant` is read by no rule. -/
  csDefault : Variant → Nat
  /-- `TSM_DEFAULT[V]` (R6, R7, D3); the value at `noVariant` is read by no rule. -/
  tsmDefault : Variant → Nat
  /-- `OPX[k]`, a total function of the byte alone (R7, R113, D4). -/
  opx : OpenOpcode → Byte → Byte
  /-- `EXPAND(key, n)`, total (log entry 13), of length exactly `n` (R9, D5). -/
  expand : Bytes → (n : Nat) → Vector Byte n
  /-- `KEYSER(variant, pre, cs, tsm)`, the key serialisation (R8, R151, D6). -/
  keyser : Variant → Bytes → Nat → Nat → Bytes
  /-- `OPERAND_SEED_BYTES` (R8, R174, D8). -/
  operandSeedBytes : Nat
  /-- `ROT_SCHEDULE(i, opcode, operand, L)`; a value outside [0, L) makes the rotation raise (R8, R144, D9). -/
  rotSchedule : Nat → Nat → Nat → Nat → Int
  /-- `ADDR_W`, the width of the operand field of an instruction word (R8, R90, D11). -/
  addrWidth : Nat
  /-- `FINALIZE(tape)`, always 32 bytes (R8, R211, D10). -/
  finalize : Bytes → Vector Byte 32
  /-- `PRE_MAX`, or `none` for unbounded (R7, D31): read by no rule of the model (log entry 12). -/
  preMax : Option Nat
  /-- `INT_W` (R7, D30): read by no rule of the model (log entry 12). -/
  intWidth : Nat
  /-- `OPTABLE_VERSION`, an uninterpreted label (R7, D37): read by no rule. -/
  optableVersion : Nat

/-- `PARAM_MIN` (R6). -/
def paramMin : Nat := 1

/-- `PARAM_MAX` (R6). -/
def paramMax : Nat := 65536

/-- A parameter in the legal range [1, 65536] (R6, R28, R29). -/
abbrev ParamInRange (n : Nat) : Prop := paramMin ≤ n ∧ n ≤ paramMax

/-- The constraints a configuration must meet before the first command (R7, R254). The length laws of
`EXPAND` and `FINALIZE` and the totality of `OPX` hold by their types. That the operand field holds every index of the
longest tape is what D11 asks of the word; no rule states it for another width than 32, where `baseInRange` gives it
(DEDUCED, log entry 3). -/
structure Config.Legal (c : Config) : Prop where
  baseInRange : ParamInRange c.baseTapeSize
  csInRange : ∀ v, v ≠ .noVariant → ParamInRange (c.csDefault v)
  tsmInRange : ∀ v, v ≠ .noVariant → ParamInRange (c.tsmDefault v)
  tsmOfTapehash1 : c.tsmDefault .tapehash1 = 1
  seedBytes : 1 ≤ c.operandSeedBytes
  wordHoldsEveryIndex : c.baseTapeSize * paramMax ≤ 2 ^ c.addrWidth
  rotInRange : ∀ i k a len, a < len → 0 ≤ c.rotSchedule i k a len ∧ c.rotSchedule i k a len < len
  intWide : 34 ≤ c.intWidth

/-- The open `BASE_TAPE_SIZE` less one (R7): any value of [1, 65536] (log entry 1). -/
opaque Config.openBaseLessOne : Fin 65536

/-- The open `CS_DEFAULT[V]` less one (R7) (log entry 1). -/
opaque Config.openCsLessOne : Variant → Fin 65536

/-- The open `TSM_DEFAULT[V]` less one, used for tapehash2 and tapehash3 (R7) (log entry 1). -/
opaque Config.openTsmLessOne : Variant → Fin 65536

/-- The open transforms `OPX[k]` (R7): "do not guess" (log entry 1). -/
opaque Config.openOpx : OpenOpcode → Byte → Byte

/-- The external primitive `EXPAND` (R9): only functionality and the length law (log entry 1). -/
opaque Config.openExpand : Bytes → (n : Nat) → Vector Byte n

/-- The open `PRE_MAX` (R7) (log entry 12). -/
opaque Config.openPreMax : Option Nat

/-- The open `INT_W` less 34 (R7) (log entry 12). -/
opaque Config.openIntWidthLess34 : Nat

/-- The uninterpreted `OPTABLE_VERSION` (R7) (log entry 12). -/
opaque Config.openOptableVersion : Nat

end Sys2Proof
end

