-- ==== Sys2Proof/Machine/State.lean ====
section
/-! DEFINITION. The state of tapehash_vm as plain data, its value after reset, and the reasons a step can stop. -/

namespace Sys2Proof.Machine

/-- `PHASE` (R24). -/
inductive Phase where
  | idle
  | gen
  | run
  | done
  | error
  deriving DecidableEq, Repr

/-- The two kinds of synchronous error (R220 to R222). -/
inductive ErrKind where
  | typeError
  | valueError
  deriving DecidableEq, Repr

/-- `ERR`, the kind of the error that ended the last invocation (R25). -/
inductive ErrCode where
  | none
  | type
  | value
  deriving DecidableEq, Repr

/-- A byte store with addresses 0 to `len - 1` (R61, R66). The cells are the bytes that differ from what an
unlisted address reads as (`unlistedByte` of Machine/Ops.lean), in rising order of their addresses (log entry 9). -/
structure Memory where
  len : Nat
  cells : List Host.Cell
  deriving DecidableEq, Repr

/-- The byte store of length 0: "empty" in R33 and R44. -/
def Memory.empty : Memory := ⟨0, []⟩

/-- A tagged value at the contract boundary (R14). -/
inductive HV where
  /-- `BYTES(b)`, an immutable byte sequence. -/
  | bytes (b : Bytes)
  /-- `MUTBYTES(b)`, a mutable byte buffer. -/
  | mutbytes (b : Bytes)
  /-- `INT(z)`, an exact integer of any size. -/
  | int (z : Int)
  /-- `OTHER`, a value of any other type. -/
  | other
  deriving DecidableEq, Repr

/-- The fields of the command port (R184); an optional argument is `none` for ABSENT, `some` for PRESENT. -/
structure Command where
  variant : Variant
  pre : HV
  cs : Option HV
  tsm : Option HV
  deriving DecidableEq, Repr

/-- What the host does at one step (R184, R201, R250): nothing, a write to a host-visible register (ignored,
R36, R37), a `START` command, or reset. -/
inductive HostAction where
  | nothing
  | write (register : Nat) (value : RegWord)
  | start (cmd : Command)
  | reset
  deriving DecidableEq, Repr

/-- The state elements of R15 and `10_state.md`, and the host's actions to come. -/
structure State where
  /-- `PHASE` (R24). -/
  phase : Phase
  /-- `ERR` (R25). -/
  err : ErrCode
  /-- `DVALID` (R26). -/
  dvalid : Bool
  /-- `VARIANT` (R27). -/
  variant : Variant
  /-- `CODE_SIZE` (R28). -/
  codeSize : Nat
  /-- `TSM` (R29). -/
  tsm : Nat
  /-- `TLEN` (R30). -/
  tlen : Nat
  /-- `PC` (R31, R40). -/
  pc : Nat
  /-- `PRE` (R32). -/
  pre : Bytes
  /-- `TAPE` (R33). -/
  tape : Memory
  /-- `PROG` (R34): each word by its value, a number of `CFG.ADDR_W + 4` bits (log entry 3). -/
  prog : List Nat
  /-- `DIGEST` (R35). -/
  digest : Vector Byte 32
  /-- The model's own field, not the spec's: what the host does at the steps to come, one action a step, the
  nearest first; an empty list means that the host does nothing (log entry 5). -/
  host : List HostAction
  deriving DecidableEq, Repr

/-- Why the machine stops. No rule of the spec stops the machine (R220): each constructor names a state outside
R41, which no run reaches. -/
inductive Fault where
  /-- Raised by the sequencer in `RUN` with `PC > CODE_SIZE`, where R181 enables no step. Safe: no run reaches
  such a state (R40, log entry 8). -/
  | pcPastEndOfProgram
  /-- Raised by instruction fetch in `RUN` with `PC < CODE_SIZE` where `PROG` holds no word at `PC`, so that
  `ProgRead` is undefined (R13, R192). Safe: no run reaches such a state (R41, log entry 8). -/
  | fetchOutsideProgram
  deriving DecidableEq, Repr

/-- Why the model gives no meaning. -/
inductive Refusal where
  /-- Raised only by an arm of `exec` whose instruction has no meaning yet; no arm does. Safe. -/
  | notModelled (mnemonic : String)
  deriving DecidableEq, Repr

/-- 32 zero bytes (R35). -/
def zeroDigest : Vector Byte 32 := Vector.replicate 32 0

/-- The machine right after reset (R45, R250), with a host that does nothing (log entry 5). -/
def State.reset : State where
  phase := .idle
  err := .none
  dvalid := false
  variant := .noVariant
  codeSize := 0
  tsm := 0
  tlen := 0
  pc := 0
  pre := []
  tape := Memory.empty
  prog := []
  digest := zeroDigest
  host := []

end Sys2Proof.Machine
end

