-- ==== Sys2Proof/Machine/Flags.lean ====
section
/-! DEFINITION. The status bits and what the host reads of them. The machine has no arithmetic flags: no
transform sets one (R21); the only status bits are `PHASE`, `ERR` and `DVALID`. -/

namespace Sys2Proof.Machine

/-- The encodings of `PHASE` (R24). -/
def Phase.code : Phase → BitVec 3
  | .idle => 0
  | .gen => 1
  | .run => 2
  | .done => 3
  | .error => 4

/-- The encodings of `ERR` (R25). -/
def ErrCode.code : ErrCode → BitVec 2
  | .none => 0
  | .type => 1
  | .value => 2

/-- The cause code of an error kind (R221, R222). -/
def ErrKind.cause : ErrKind → ErrCode
  | .typeError => .type
  | .valueError => .value

/-- The encodings of `VARIANT` (R27). -/
def variantCode : Variant → BitVec 2
  | .noVariant => 0
  | .tapehash1 => 1
  | .tapehash2 => 2
  | .tapehash3 => 3

/-- The phases in which no step is enabled until the host acts (R181). -/
def Phase.quiescent : Phase → Bool
  | .idle | .done | .error => true
  | .gen | .run => false

/-- Register 0, `STATUS` (R36): reserved [31:6], `DVALID` [5], `ERR` [4:3], `PHASE` [2:0]. -/
def statusWord (s : State) : RegWord := 0#26 ++ BitVec.ofBool s.dvalid ++ s.err.code ++ s.phase.code

/-- The level output `busy` (R36). -/
def busyOut (s : State) : Bool := s.phase = .gen || s.phase = .run

/-- The level output `done` (R36). -/
def doneOut (s : State) : Bool := s.phase = .done

/-- The level output `err` (R36). -/
def errOut (s : State) : Bool := s.phase = .error

end Sys2Proof.Machine
end

