-- ==== Sys2Proof/Machine/Operands.lean ====
section
/-! DEFINITION. Operands and arguments: byte order (R12), tag tests (R14), and the bounds tests of the
contracts (R111, R140, R186). There is one operand form, the absolute tape index of R93. -/

namespace Sys2Proof.Machine

/-- `u32be(x)` (R12). -/
def u32be (x : Nat) : Bytes :=
  [BitVec.ofNat 8 (x / 2 ^ 24), BitVec.ofNat 8 (x / 2 ^ 16), BitVec.ofNat 8 (x / 2 ^ 8), BitVec.ofNat 8 x]

/-- `be(b)`, most significant byte first; `be([]) = 0` (R12). -/
def be (b : Bytes) : Nat := b.foldl (fun n v => n * 256 + v.toNat) 0

/-- The bytes of a `BYTES` value; any other tag fails the test (R14, R186). -/
def HV.asBytes : HV → Option Bytes
  | .bytes b => some b
  | .mutbytes _ | .int _ | .other => none

/-- The contents of a `MUTBYTES` value; any other tag fails the test (R14, R111, R140). -/
def HV.asMutbytes : HV → Option Bytes
  | .mutbytes b => some b
  | .bytes _ | .int _ | .other => none

/-- The integer of an `INT` value; any other tag fails the test (R14). -/
def HV.asInt : HV → Option Int
  | .int z => some z
  | .bytes _ | .mutbytes _ | .other => none

/-- The test `0 <= a < len` on an operand or a rotation amount (R111 step 2, R140 step 2). -/
abbrev IndexInBounds (a : Int) (len : Nat) : Prop := 0 ≤ a ∧ a < len

/-- Whether the variant uses `code_size` (R186). -/
def usesCs : Variant → Bool
  | .tapehash1 | .tapehash3 => true
  | .noVariant | .tapehash2 => false

/-- Whether the variant uses `tape_size_multiplier` (R186). -/
def usesTsm : Variant → Bool
  | .tapehash2 | .tapehash3 => true
  | .noVariant | .tapehash1 => false

/-- The value a parameter port supplies (R186, R187, R189): `some (some z)` for a used, present `INT(z)`,
`some none` for one that is absent or that the variant does not use, `none` for a type fault. -/
def suppliedInt (used : Bool) (arg : Option HV) : Option (Option Int) :=
  match used, arg with
  | false, _ => some none
  | true, none => some none
  | true, some v => v.asInt.map some

/-- A supplied parameter outside [1, 65536] (R186 step 2). -/
def paramFault : Option Int → Bool
  | none => false
  | some z => z < paramMin || z > paramMax

/-- The effective value of a parameter: the supplied one, else the default (R187). -/
def effective (supplied : Option Int) (default : Nat) : Nat :=
  match supplied with
  | some z => z.toNat
  | none => default

end Sys2Proof.Machine
end

