-- ==== Sys2Proof/Machine/Ops.lean ====
section
/-! DEFINITION. The named operations over the tape and the state: access to one byte (R66), rotation (R141),
the two units of an instruction step (R111, R112, R140), the error sequence (R226) and the way out of it (R228),
and the instruction step that all sixteen opcodes share (R191 to R196). -/

namespace Sys2Proof.Machine

/-! ### The tape -/

/-- What an address below the length that no cell lists reads as (log entry 9). -/
def unlistedByte : Byte := 0

/-- The byte the cells give an address. -/
def cellAt : List Host.Cell → Nat → Byte
  | [], _ => unlistedByte
  | (b, v) :: cs, a => if b = a then v else cellAt cs a

/-- The cells without those of one address. -/
def eraseCell (cs : List Host.Cell) (a : Nat) : List Host.Cell := cs.filter (fun c => c.1 ≠ a)

/-- The cells with one more, before the first of a greater address. -/
def insertCell (a : Nat) (v : Byte) : List Host.Cell → List Host.Cell
  | [] => [(a, v)]
  | (b, w) :: cs => if a < b then (a, v) :: (b, w) :: cs else (b, w) :: insertCell a v cs

/-- The canonical form: addresses strictly rising, below the length, and no cell equal to what an unlisted
address reads as. -/
abbrev Memory.wf (m : Memory) : Prop :=
  m.cells.Pairwise (fun x y => x.1 < y.1) ∧ ∀ c ∈ m.cells, c.1 < m.len ∧ c.2 ≠ unlistedByte

/-- `MemRead(a, 1)` (R13, R66): the byte at `a`, without side effect; no access for `a >= len`. -/
def memRead (m : Memory) (a : Nat) : Option Byte := if a < m.len then some (cellAt m.cells a) else none

/-- `MemWrite(a, 1, v)` (R13, R66): the byte at `a` becomes `v`, every other byte is unchanged; no access for
`a >= len`. -/
def memWrite (m : Memory) (a : Nat) (v : Byte) : Memory :=
  if a < m.len then
    { m with cells :=
        if v = unlistedByte then eraseCell m.cells a else insertCell a v (eraseCell m.cells a) }
  else m

/-- The cells of a byte sequence whose first byte has address `i`. -/
def cellsFrom (i : Nat) : Bytes → List Host.Cell
  | [] => []
  | b :: bs => if b = unlistedByte then cellsFrom (i + 1) bs else (i, b) :: cellsFrom (i + 1) bs

/-- The store that holds a byte sequence, byte `i` at address `i` (R161). -/
def memOfBytes (b : Bytes) : Memory := ⟨b.length, cellsFrom 0 b⟩

/-- The contents of a store in index order (R210). -/
def memBytes (m : Memory) : Bytes := (List.range m.len).map (cellAt m.cells)

/-- `rotl(t, n)` for `n < len` (R141): the byte at address `p` moves to `(p - n) mod len`. -/
def memRotl (m : Memory) (n : Nat) : Memory :=
  { m with cells :=
      (m.cells.filter (fun c => n ≤ c.1 ∧ c.1 < m.len)).map (fun c => (c.1 - n, c.2)) ++
      (m.cells.filter (fun c => c.1 < n)).map (fun c => (c.1 + m.len - n, c.2)) }

/-! ### The units of an instruction step -/

/-- The execution unit on arguments of the right type and an opcode already selected: the bounds tests of R111
step 2, then R112 with `f` the selected transform. The bound is the tape's length (log entry 14). -/
def applyTransform (f : Byte → Byte) (a : Int) (m : Memory) : Except ErrKind Memory :=
  if m.len = 0 then .error .valueError
  else if IndexInBounds a m.len then
    match memRead m a.toNat with
    | some v => .ok (memWrite m a.toNat (f v))
    | none => .error .valueError
  else .error .valueError

/-- The rotator on arguments of the right type: the tests of R140 step 2, then R141. -/
def rotateTape (m : Memory) (n : Int) : Except ErrKind Memory :=
  if m.len = 0 then .error .valueError
  else if IndexInBounds n m.len then .ok (memRotl m n.toNat)
  else .error .valueError

/-! ### The error sequence and the way out -/

/-- `PRE`, `TAPE`, `PROG <- empty` (R44). -/
def emptyBuffers (s : State) : State := { s with pre := [], tape := Memory.empty, prog := [] }

/-- The error sequence, the machine's only form of trap entry (R226): `VARIANT`, `CODE_SIZE`, `TSM`, `TLEN` and
`PC` keep what they held, nothing is saved, and control goes nowhere. -/
def raise (k : ErrKind) (s : State) : State :=
  { emptyBuffers s with err := k.cause, dvalid := false, digest := zeroDigest, phase := .error }

/-- What an accepted `START` does before its tests (R186 step 0). There is no trap return: this and reset are
the only ways out of `ERROR` (R228). -/
def clearForStart (s : State) : State :=
  { emptyBuffers s with err := .none, dvalid := false, digest := zeroDigest }

/-- Reset (R250): every state element takes its value of R45; the host's later actions are still to come. -/
def resetBlock (s : State) : State := { State.reset with host := s.host }

/-! ### The instruction step -/

/-- The end of an instruction step: `TAPE` is replaced and `PC <- PC + 1` (R194, R196). -/
def completeInstruction (t : Memory) (s : State) : State := { s with tape := t, pc := s.pc + 1 }

/-- One instruction with opcode `k`, transform `f` and operand `a` (R191): transform (R193), rotation by the
scheduled amount of the tape as the transform left it (R194), advance (R196). An error of either unit discards the
step's writes and enters the error sequence (R224, R226). The phase is the sequencer's to test (log entry 20). -/
def instructionStep (c : Config) (k : Nat) (f : Byte → Byte) (a : Nat) (s : State) :
    Host.Outcome State Fault Refusal :=
  match applyTransform f a s.tape with
  | .error e => .next (raise e s)
  | .ok transformed =>
    match rotateTape transformed (c.rotSchedule s.pc k a s.tlen) with
    | .error e => .next (raise e s)
    | .ok rotated => .next (completeInstruction rotated s)

end Sys2Proof.Machine
end

