-- ==== Sys2Proof/Machine/Seed.lean ====
section
/-! DEFINITION. The seed expander (R150 to R157), the tape generator (R160 to R163), the program generator
(R170 to R177), and the defaults the spec decided for the open functions of the configuration (R8). -/

namespace Sys2Proof.Machine

/-- The spec's default key serialisation (R151, D6): the preimage, then the effective value of each parameter
the variant uses, `code_size` first, each as 4 bytes big-endian. -/
def defaultKeyser (v : Variant) (pre : Bytes) (cs tsm : Nat) : Bytes :=
  pre ++ (if usesCs v then u32be cs else []) ++ (if usesTsm v then u32be tsm else [])

/-- The spec's default rotation schedule (R8, R144, D9): the operand. -/
def defaultRotSchedule (_i _opcode operand _len : Nat) : Int := operand

/-- The spec's default finalizer for an expansion primitive (R211, D10). -/
def defaultFinalize (expand : Bytes → (n : Nat) → Vector Byte n) (tape : Bytes) : Vector Byte 32 := expand tape 32

/-- `G = 1 + OPERAND_SEED_BYTES`, the stream bytes of one instruction (R153, R171). -/
def groupSize (c : Config) : Nat := 1 + c.operandSeedBytes

/-- `TLEN = BASE_TAPE_SIZE * TSM`, on mathematical integers (R160). -/
def tapeLength (c : Config) (tsm : Nat) : Nat := c.baseTapeSize * tsm

/-- The seed stream of one invocation (R151, R153): one request of `TLEN + CODE_SIZE * G` bytes. -/
def seedStream (c : Config) (v : Variant) (pre : Bytes) (cs tsm : Nat) : Bytes :=
  (c.expand (c.keyser v pre cs tsm) (tapeLength c tsm + cs * groupSize c)).toList

/-- The tape's bytes `S[0 : TLEN]` (R154, R161). -/
def streamTape (c : Config) (tsm : Nat) (stream : Bytes) : Bytes := stream.take (tapeLength c tsm)

/-- Group `j`, the `G` bytes from `TLEN + G * j` on (R154, R171). -/
def streamGroup (c : Config) (tsm : Nat) (stream : Bytes) (j : Nat) : Bytes :=
  (stream.drop (tapeLength c tsm + groupSize c * j)).take (groupSize c)

/-- The opcode of a group: the low nibble of its first byte (R172). -/
def groupOpcode (g : Bytes) : Nat := (g.headD 0).toNat % 16

/-- The operand of a group: its other bytes as one number, most significant first, modulo the tape length
(R173). -/
def groupOperand (len : Nat) (g : Bytes) : Nat := be g.tail % len

/-- Instruction `j` of the program, as the word of its pair (R92, R171): from group `j` of the stream. -/
def generatedWord (c : Config) (tsm : Nat) (stream : Bytes) (j : Nat) : InstrWord c.addrWidth :=
  pairWord c.addrWidth (groupOpcode (streamGroup c tsm stream j))
    (groupOperand (tapeLength c tsm) (streamGroup c tsm stream j))

/-- The words of the program (R171), by their values, in stream order. -/
def generateProgram (c : Config) (cs tsm : Nat) (stream : Bytes) : List Nat :=
  (List.range cs).map fun j => (generatedWord c tsm stream j).toNat

end Sys2Proof.Machine
end

