-- ==== Sys2Proof/Machine/Configured.lean ====
section
/-! DEFINITION. The configuration of the machine: the open values are opaque constants (R7, log entry 1), the
decided ones are the spec's defaults (R8, log entry 2). -/

namespace Sys2Proof.Machine

/-- `CFG` of this machine (R5). -/
def cfg : Config where
  baseTapeSize := Config.openBaseLessOne.val + 1
  csDefault := fun v => (Config.openCsLessOne v).val + 1
  tsmDefault := fun v =>
    match v with
    | .tapehash1 => 1
    | .noVariant | .tapehash2 | .tapehash3 => (Config.openTsmLessOne v).val + 1
  opx := Config.openOpx
  expand := Config.openExpand
  keyser := defaultKeyser
  operandSeedBytes := 4
  rotSchedule := defaultRotSchedule
  addrWidth := defaultAddrWidth
  finalize := defaultFinalize Config.openExpand
  preMax := Config.openPreMax
  intWidth := Config.openIntWidthLess34 + 34
  optableVersion := Config.openOptableVersion

end Sys2Proof.Machine
end

