-- ==== Sys2Proof/Machine/Confirmed.lean ====
section
/-! DEFINITION. The seven opcodes whose transform the source gives (R114 to R116, R118, R119, R121, R123): each
transform on the unsigned value of the byte, reduced modulo 256 (R130, log entry 21), and each instruction's meaning. -/

namespace Sys2Proof.Machine

/-- `F[0](v) = v` (R113, R114). -/
def identByte (v : Byte) : Byte := v

/-- `F[1](v) = (v * 2) mod 256` (R113, R115). -/
def dblByte (v : Byte) : Byte := BitVec.ofNat 8 (v.toNat * 2 % 256)

/-- `F[2](v) = v div 2` (R113, R116). -/
def halfByte (v : Byte) : Byte := BitVec.ofNat 8 (v.toNat / 2)

/-- `F[4](v) = (v + 1) mod 256` (R113, R118). -/
def incByte (v : Byte) : Byte := BitVec.ofNat 8 ((v.toNat + 1) % 256)

/-- `F[5](v) = (v - 1) mod 256`, the least non-negative residue (R113, R119). -/
def decByte (v : Byte) : Byte := BitVec.ofInt 8 (((v.toNat : Int) - 1) % 256)

/-- `F[7](v) = (v * 4) mod 256` (R113, R121). -/
def quadByte (v : Byte) : Byte := BitVec.ofNat 8 (v.toNat * 4 % 256)

/-- `F[9](v) = ((v << 4) | (v >> 4)) mod 256` (R113, R123). -/
def nswapByte (v : Byte) : Byte := BitVec.ofNat 8 (((v.toNat <<< 4) ||| (v.toNat >>> 4)) % 256)

/-- `IDENT a`, identity (opcode 0, R114). -/
def execIdent (a : Nat) (s : State) : Host.Outcome State Fault Refusal :=
  instructionStep cfg 0 identByte a s

/-- `DBL a`, double (opcode 1, R115). -/
def execDbl (a : Nat) (s : State) : Host.Outcome State Fault Refusal :=
  instructionStep cfg 1 dblByte a s

/-- `HALF a`, halve (opcode 2, R116). -/
def execHalf (a : Nat) (s : State) : Host.Outcome State Fault Refusal :=
  instructionStep cfg 2 halfByte a s

/-- `INC a`, increment (opcode 4, R118). -/
def execInc (a : Nat) (s : State) : Host.Outcome State Fault Refusal :=
  instructionStep cfg 4 incByte a s

/-- `DEC a`, decrement (opcode 5, R119). -/
def execDec (a : Nat) (s : State) : Host.Outcome State Fault Refusal :=
  instructionStep cfg 5 decByte a s

/-- `QUAD a`, quadruple (opcode 7, R121). -/
def execQuad (a : Nat) (s : State) : Host.Outcome State Fault Refusal :=
  instructionStep cfg 7 quadByte a s

/-- `NSWAP a`, nibble swap (opcode 9, R123). -/
def execNswap (a : Nat) (s : State) : Host.Outcome State Fault Refusal :=
  instructionStep cfg 9 nswapByte a s

end Sys2Proof.Machine
end

