-- ==== Sys2Proof/Machine/Open.lean ====
section
/-! DEFINITION. The nine opcodes whose transform is open (R96 (b)): each applies `CFG.OPX[k]`, a total function
of the byte alone of which nothing else is assumed (log entry 1). -/

namespace Sys2Proof.Machine

/-- `OP3 a` (opcode 3, R117). -/
def execOp3 (a : Nat) (s : State) : Host.Outcome State Fault Refusal :=
  instructionStep cfg 3 (cfg.opx .op3) a s

/-- `OP6 a` (opcode 6, R120). -/
def execOp6 (a : Nat) (s : State) : Host.Outcome State Fault Refusal :=
  instructionStep cfg 6 (cfg.opx .op6) a s

/-- `OP8 a` (opcode 8, R122). -/
def execOp8 (a : Nat) (s : State) : Host.Outcome State Fault Refusal :=
  instructionStep cfg 8 (cfg.opx .op8) a s

/-- `OP10 a` (opcode 10, R124). -/
def execOp10 (a : Nat) (s : State) : Host.Outcome State Fault Refusal :=
  instructionStep cfg 10 (cfg.opx .op10) a s

/-- `OP11 a` (opcode 11, R125). -/
def execOp11 (a : Nat) (s : State) : Host.Outcome State Fault Refusal :=
  instructionStep cfg 11 (cfg.opx .op11) a s

/-- `OP12 a` (opcode 12, R126). -/
def execOp12 (a : Nat) (s : State) : Host.Outcome State Fault Refusal :=
  instructionStep cfg 12 (cfg.opx .op12) a s

/-- `OP13 a` (opcode 13, R127). -/
def execOp13 (a : Nat) (s : State) : Host.Outcome State Fault Refusal :=
  instructionStep cfg 13 (cfg.opx .op13) a s

/-- `OP14 a` (opcode 14, R128). -/
def execOp14 (a : Nat) (s : State) : Host.Outcome State Fault Refusal :=
  instructionStep cfg 14 (cfg.opx .op14) a s

/-- `OP15 a` (opcode 15, R129). -/
def execOp15 (a : Nat) (s : State) : Host.Outcome State Fault Refusal :=
  instructionStep cfg 15 (cfg.opx .op15) a s

end Sys2Proof.Machine
end

