-- ==== Sys2Proof/Machine/Dispatch.lean ====
section
/-! DEFINITION. The meaning of every instruction, by constructor. -/

namespace Sys2Proof.Machine

def exec (i : Instr) (s : State) : Host.Outcome State Fault Refusal :=
  match i with
  | .ident a => Sys2Proof.Machine.execIdent a s
  | .dbl a => Sys2Proof.Machine.execDbl a s
  | .half a => Sys2Proof.Machine.execHalf a s
  | .op3 a => Sys2Proof.Machine.execOp3 a s
  | .inc a => Sys2Proof.Machine.execInc a s
  | .dec a => Sys2Proof.Machine.execDec a s
  | .op6 a => Sys2Proof.Machine.execOp6 a s
  | .quad a => Sys2Proof.Machine.execQuad a s
  | .op8 a => Sys2Proof.Machine.execOp8 a s
  | .nswap a => Sys2Proof.Machine.execNswap a s
  | .op10 a => Sys2Proof.Machine.execOp10 a s
  | .op11 a => Sys2Proof.Machine.execOp11 a s
  | .op12 a => Sys2Proof.Machine.execOp12 a s
  | .op13 a => Sys2Proof.Machine.execOp13 a s
  | .op14 a => Sys2Proof.Machine.execOp14 a s
  | .op15 a => Sys2Proof.Machine.execOp15 a s

end Sys2Proof.Machine
end

