-- ==== Sys2Proof/Machine/Sequencer.lean ====
section
/-! DEFINITION. The VM driver (45_vm_driver.md) and the digest finalizer (46_digest_finalizer.md): the host's
command, the generation step, the choice of the next step, and the finalization step, each under a configuration
`c`. -/

namespace Sys2Proof.Machine

/-! ### START -/

/-- What an accepted `START` latches when its validation passes (R188). -/
structure Latch where
  variant : Variant
  pre : Bytes
  codeSize : Nat
  tsm : Nat
  deriving DecidableEq, Repr

/-- Validation of a command (R186 steps 1 and 2) and the effective parameters (R187). Every type test precedes
every value test (R225); the argument a variant does not use is not looked at (R189). -/
def validate (c : Config) (cmd : Command) : Except ErrKind Latch :=
  match cmd.pre.asBytes, suppliedInt (usesCs cmd.variant) cmd.cs, suppliedInt (usesTsm cmd.variant) cmd.tsm with
  | some p, some cs, some tsm =>
    if cmd.variant = .noVariant then .error .valueError
    else if paramFault cs then .error .valueError
    else if paramFault tsm then .error .valueError
    else .ok ⟨cmd.variant, p, effective cs (c.csDefault cmd.variant), effective tsm (c.tsmDefault cmd.variant)⟩
  | _, _, _ => .error .typeError

/-- The latch (R188). -/
def latch (l : Latch) (s : State) : State :=
  { s with variant := l.variant, pre := l.pre, codeSize := l.codeSize, tsm := l.tsm, phase := .gen }

/-- An accepted `START` (R186 to R188). -/
def startStep (c : Config) (cmd : Command) (s : State) : State :=
  match validate c cmd with
  | .error k => raise k (clearForStart s)
  | .ok l => latch l (clearForStart s)

/-! ### Generation -/

/-- The writes of the generation step once the tape length has passed its test (R190). -/
def loadGenerated (c : Config) (stream : Bytes) (s : State) : State :=
  { s with
    tlen := tapeLength c s.tsm
    tape := memOfBytes (streamTape c s.tsm stream)
    prog := generateProgram c s.codeSize s.tsm stream
    pc := 0
    phase := .run }

/-- The generation step (R190), with the defensive test of the tape length (R160); where it fails the write of `TLEN`
is discarded (log entry 15). -/
def generationStep (c : Config) (s : State) : State :=
  if tapeLength c s.tsm < 1 then raise .valueError s
  else loadGenerated c (seedStream c s.variant s.pre s.codeSize s.tsm) s

/-! ### Finalization -/

/-- The finalization step (R197, R212). -/
def finalizationStep (c : Config) (s : State) : State :=
  { emptyBuffers s with digest := c.finalize (memBytes s.tape), dvalid := true, phase := .done }

/-! ### The choice of the step -/

/-- `ProgRead(PC)` (R13, R192). -/
def fetch (s : State) : Option Nat := s.prog[s.pc]?

/-- The sequencer's own step (R181), with `run` the meaning of instructions. In a quiescent phase no step is
enabled and nothing changes (R181, R240, log entry 6). -/
def advance (c : Config) (run : Instr → State → Host.Outcome State Fault Refusal) (s : State) :
    Host.Outcome State Fault Refusal :=
  match s.phase with
  | .idle | .done | .error => .next s
  | .gen => .next (generationStep c s)
  | .run =>
    if s.pc < s.codeSize then
      match fetch s with
      | some w => run (decodeStored c.addrWidth w) s
      | none => .fault .fetchOutsideProgram
    else if s.pc = s.codeSize then .next (finalizationStep c s)
    else .fault .pcPastEndOfProgram

/-- What the host does at this step (log entry 5). -/
def hostNow (s : State) : HostAction := s.host.headD .nothing

/-- The state with the host's present action sampled and gone: the port holds no value between commands (R38,
R184). -/
def hostTaken (s : State) : State := { s with host := s.host.tail }

/-- One step: the host's present action, then the sequencer's. Reset acts in any phase (R250); a command is
accepted in a quiescent phase and ignored in `GEN` and `RUN` (R185); a write to a register is ignored (R36, R37).
An ignored action does not delay the sequencer (log entry 7). -/
def sequencer (c : Config) (run : Instr → State → Host.Outcome State Fault Refusal) (s : State) :
    Host.Outcome State Fault Refusal :=
  match hostNow s with
  | .reset => .next (resetBlock (hostTaken s))
  | .start cmd =>
    if s.phase.quiescent then .next (startStep c cmd (hostTaken s)) else advance c run (hostTaken s)
  | .nothing | .write _ _ => advance c run (hostTaken s)

/-! ### Loading by a harness -/

/-- The words of a program with `w` at index `pc`, filled up with zero words where it was shorter. -/
def placeWord (prog : List Nat) (pc w : Nat) : List Nat :=
  (prog ++ List.replicate (pc + 1 - prog.length) 0).set pc w

/-- The tape a harness runs on where the state holds none: 2^32 zero bytes, so that every operand of the default
32-bit field is in bounds (log entry 11). -/
def harnessTape (m : Memory) : Memory := if m.len = 0 then ⟨2 ^ defaultAddrWidth, []⟩ else m

/-- A state in `RUN` about to execute the word of value `w`, as a model's harness loads one (`95_test_vectors.md`
section 6; the host itself cannot, R201): log entry 11. -/
def loadForHarness (s : State) (w : Nat) : State :=
  { s with
    phase := .run, err := .none, dvalid := false, digest := zeroDigest, host := []
    codeSize := max s.codeSize (s.pc + 1)
    tape := harnessTape s.tape
    tlen := (harnessTape s.tape).len
    prog := placeWord s.prog s.pc w }

end Sys2Proof.Machine
end

