-- ==== Sys2Proof/WellFormed.lean ====
section
/-! DEFINITION. Which instructions have an encoding. -/

namespace Sys2Proof

/-- A pair whose operand needs more than the `n` bits of the operand field has no encoding (R92; `n` is `CFG.ADDR_W`,
32 by default). Every opcode is one of the sixteen by
construction. Whether the operand lies within the tape is no question of the encoding: it is tested when the
instruction executes (R91, R96 (c)). -/
def Instr.wellFormed (n : Nat) (i : Instr) : Bool := decide (i.operand < 2 ^ n)

end Sys2Proof
end

