-- ==== Sys2Proof/Machine/Step.lean ====
section
/-! DEFINITION. One step of the machine, and the placing of an instruction where it is fetched. -/

namespace Sys2Proof.Machine

/-- One step (R181): the sequencer under the machine's configuration, with `exec` the meaning of instructions. -/
def step (s : State) : Host.Outcome State Fault Refusal := sequencer cfg exec s

/-- The state with an instruction of `nbits` bits, `w`, stored at `PROG[PC]` and the block in `RUN`, so that the
next step fetches and runs it (log entry 11). -/
def State.withFetchWord (s : State) (nbits w : Nat) : State :=
  loadForHarness s (w % 2 ^ nbits % 2 ^ (defaultAddrWidth + 4))

end Sys2Proof.Machine
end

