-- ==== Sys2Proof/Machine/Assembler.lean ====
section
/-! DEFINITION. The assembler notation of R98 over lists of characters: `MNEMONIC operand`, one instruction a
line, `;` comments, no labels, directives or pseudo-instructions; for words with an operand field of `n` bits. -/

namespace Sys2Proof.Machine

/-- The mnemonic of an instruction, character by character (R94, R98). -/
def mnemonicChars : Instr → List Char
  | .ident _ => ['I', 'D', 'E', 'N', 'T']
  | .dbl _ => ['D', 'B', 'L']
  | .half _ => ['H', 'A', 'L', 'F']
  | .op3 _ => ['O', 'P', '3']
  | .inc _ => ['I', 'N', 'C']
  | .dec _ => ['D', 'E', 'C']
  | .op6 _ => ['O', 'P', '6']
  | .quad _ => ['Q', 'U', 'A', 'D']
  | .op8 _ => ['O', 'P', '8']
  | .nswap _ => ['N', 'S', 'W', 'A', 'P']
  | .op10 _ => ['O', 'P', '1', '0']
  | .op11 _ => ['O', 'P', '1', '1']
  | .op12 _ => ['O', 'P', '1', '2']
  | .op13 _ => ['O', 'P', '1', '3']
  | .op14 _ => ['O', 'P', '1', '4']
  | .op15 _ => ['O', 'P', '1', '5']

/-- Why a line is no instruction. -/
inductive AsmError where
  /-- The line is not a mnemonic and one operand. -/
  | notMnemonicOperand
  /-- The first word is none of the sixteen mnemonics in upper case. -/
  | unknownMnemonic
  /-- The second word is no unsigned integer in decimal or in hexadecimal with `0x`. -/
  | badOperand
  /-- The operand needs more bits than the operand field has: the pair has no encoding (R92). -/
  | operandTooLarge
  deriving DecidableEq, Repr

/-- The opcode a mnemonic names (R94). -/
def opcodeOfMnemonic (m : List Char) : Option (BitVec 4) :=
  (List.range 16).findSome? fun k =>
    if mnemonicChars (Instr.ofFields (BitVec.ofNat 4 k) 0) = m then some (BitVec.ofNat 4 k) else none

/-- The value of a digit in base 16, either case. -/
def digitValue (ch : Char) : Option Nat :=
  let n := ch.toNat
  if 48 ≤ n ∧ n ≤ 57 then some (n - 48)
  else if 65 ≤ n ∧ n ≤ 70 then some (n - 55)
  else if 97 ≤ n ∧ n ≤ 102 then some (n - 87)
  else none

/-- The value of a run of digits in a base, from the value of those before it. -/
def digitsValue (base : Nat) : Nat → List Char → Option Nat
  | acc, [] => some acc
  | acc, ch :: cs =>
    match digitValue ch with
    | some d => if d < base then digitsValue base (acc * base + d) cs else none
    | none => none

/-- An operand: an unsigned integer in decimal, or in hexadecimal after `0x` (R98). -/
def parseOperand : List Char → Option Nat
  | [] => none
  | '0' :: 'x' :: d :: ds => digitsValue 16 0 (d :: ds)
  | d :: ds => digitsValue 10 0 (d :: ds)

/-- The pieces of a text between the characters that `sep` accepts. -/
def splitAt (sep : Char → Bool) : List Char → List (List Char)
  | [] => [[]]
  | ch :: cs =>
    if sep ch then [] :: splitAt sep cs
    else
      match splitAt sep cs with
      | [] => [[ch]]
      | t :: ts => (ch :: t) :: ts

/-- A blank between words (log entry 18). -/
def isBlank (ch : Char) : Bool := ch = ' ' || ch = '\t'

/-- The words of a line, its comment cut off (R98). -/
def lineWords (line : List Char) : List (List Char) :=
  (splitAt isBlank (line.takeWhile (fun ch => ch ≠ ';'))).filter (fun t => !t.isEmpty)

/-- One line: its instruction, or `none` where it holds only blanks and a comment (R98, log entry 18). -/
def parseLine (n : Nat) (line : List Char) : Except AsmError (Option Instr) :=
  match lineWords line with
  | [] => .ok none
  | [m, o] =>
    match opcodeOfMnemonic m with
    | none => .error .unknownMnemonic
    | some k =>
      match parseOperand o with
      | none => .error .badOperand
      | some a =>
        if (Instr.ofFields k a).wellFormed n then .ok (some (Instr.ofFields k a)) else .error .operandTooLarge
  | _ => .error .notMnemonicOperand

/-- The lines of a program to its words, instruction `i` to `PROG[i]` (R98). -/
def assembleLines (n : Nat) : List (List Char) → Except AsmError (List (InstrWord n))
  | [] => .ok []
  | line :: rest =>
    match parseLine n line, assembleLines n rest with
    | .error e, _ => .error e
    | .ok _, .error e => .error e
    | .ok none, .ok ws => .ok ws
    | .ok (some i), .ok ws => .ok (encode n i :: ws)

/-- A program's text to its words (R98). R98 does not say what ends a line: here the line feed `'\n'` alone does, and a
carriage return is an ordinary character (DESIGN CHOICE, log entry 18). -/
def assemble (n : Nat) (text : List Char) : Except AsmError (List (InstrWord n)) :=
  assembleLines n (splitAt (fun ch => ch = '\n') text)

/-- The upper-case hexadecimal digit of a value below 16. -/
def hexDigit (n : Nat) : Char := if n < 10 then Char.ofNat (48 + n) else Char.ofNat (55 + n)

/-- The last `k` hexadecimal digits of a number, most significant first. -/
def hexDigits : Nat → Nat → List Char
  | 0, _ => []
  | k + 1, n => hexDigits k (n / 16) ++ [hexDigit (n % 16)]

/-- The hexadecimal digits that hold a number of `n` bits, at least one. -/
def hexWidth (n : Nat) : Nat := max 1 ((n + 3) / 4)

/-- An instruction written in the notation of R98, its operand in hexadecimal at the full width of an `n`-bit field. -/
def printInstr (n : Nat) (i : Instr) : List Char :=
  mnemonicChars i ++ [' ', '0', 'x'] ++ hexDigits (hexWidth n) i.operand

end Sys2Proof.Machine
end

