-- ==== Sys2Proof/Machine/Table.lean ====
section
/-! DEFINITION. The opcode table `F` as one function of the configuration (R113), and the instruction step of an
arbitrary configuration, for the units that select an opcode by number and for claims about every `CFG`. -/

namespace Sys2Proof.Machine

/-- The opcode table `F` (R113): the byte transform of each of the sixteen entries. -/
def byteTransform (c : Config) : Instr → Byte → Byte
  | .ident _ => identByte
  | .dbl _ => dblByte
  | .half _ => halfByte
  | .op3 _ => c.opx .op3
  | .inc _ => incByte
  | .dec _ => decByte
  | .op6 _ => c.opx .op6
  | .quad _ => quadByte
  | .op8 _ => c.opx .op8
  | .nswap _ => nswapByte
  | .op10 _ => c.opx .op10
  | .op11 _ => c.opx .op11
  | .op12 _ => c.opx .op12
  | .op13 _ => c.opx .op13
  | .op14 _ => c.opx .op14
  | .op15 _ => c.opx .op15

/-- `F[k]` for a 4-bit opcode number (R94, R113). -/
def tableEntry (c : Config) (k : BitVec 4) : Byte → Byte := byteTransform c (Instr.ofFields k 0)

/-- The instruction step under a configuration `c`: what `exec` is for the machine's own. -/
def execWith (c : Config) (i : Instr) (s : State) : Host.Outcome State Fault Refusal :=
  instructionStep c i.opcode (byteTransform c i) i.operand s

end Sys2Proof.Machine
end

