-- ==== Sys2Proof/Machine/Hash.lean ====
section
/-! DEFINITION. The run as one function `H` (R200), written on byte sequences as the spec writes it: it knows
nothing of the sequencer, of the packed program or of the canonical form of the tape. -/

namespace Sys2Proof.Machine

/-- The value of `H` (R200). -/
inductive HashResult where
  | typeError
  | valueError
  | digest (d : Vector Byte 32)
  deriving DecidableEq, Repr

/-- `rotl(t, n) = t[n:L] ++ t[0:n]` on a byte sequence (R141). -/
def rotlBytes (t : Bytes) (n : Nat) : Bytes := t.drop n ++ t.take n

/-- A sequence with element `a` replaced by `f` of it (R112). -/
def transformBytes (f : Byte → Byte) (a : Nat) (t : Bytes) : Bytes := t.modify a f

/-- `CFG.ROT_SCHEDULE(j, k_j, a_j, L)`, the scheduled amount of instruction `j` (R144, R200). -/
def scheduledAmount (c : Config) (tsm : Nat) (stream : Bytes) (j : Nat) : Int :=
  let g := streamGroup c tsm stream j
  c.rotSchedule j (groupOpcode g) (groupOperand (tapeLength c tsm) g) (tapeLength c tsm)

/-- Whether the first `n` scheduled amounts all lie in [0, L), where `rotl` has a value (R141). -/
def amountsInBounds (c : Config) (tsm : Nat) (stream : Bytes) (n : Nat) : Bool :=
  (List.range n).all fun j => decide (IndexInBounds (scheduledAmount c tsm stream j) (tapeLength c tsm))

/-- `T_j`, the tape after `j` instructions (R200). Where a scheduled amount lies outside [0, L), R141 gives `rotl` no
value and R200 names none: what `Int.toNat` makes of the amount is then the model's choice (DESIGN CHOICE, log
entry 22), and `hashFunction` answers no digest made from it. -/
def tapeAfter (c : Config) (tsm : Nat) (stream : Bytes) : Nat → Bytes
  | 0 => streamTape c tsm stream
  | j + 1 =>
    let g := streamGroup c tsm stream j
    rotlBytes
      (transformBytes (tableEntry c (BitVec.ofNat 4 (groupOpcode g))) (groupOperand (tapeLength c tsm) g)
        (tapeAfter c tsm stream j))
      (scheduledAmount c tsm stream j).toNat

/-- `H(CFG, V, pre, cs, tsm)` (R200). Where a scheduled amount of the run lies outside [0, L) R200 gives `H` no value;
the model's choice (DESIGN CHOICE, log entry 22) is the ValueError that the instruction step raises there (R194). -/
def hashFunction (c : Config) (cmd : Command) : HashResult :=
  match validate c cmd with
  | .error .typeError => .typeError
  | .error .valueError => .valueError
  | .ok l =>
    let stream := seedStream c l.variant l.pre l.codeSize l.tsm
    if tapeLength c l.tsm < 1 then .valueError
    else if amountsInBounds c l.tsm stream l.codeSize then .digest (c.finalize (tapeAfter c l.tsm stream l.codeSize))
    else .valueError

end Sys2Proof.Machine
end

