-- ==== Sys2Proof/Machine/HostPort.lean ====
section
/-! DEFINITION. What the host reads (R36 to R38). -/

namespace Sys2Proof.Machine

/-- Register `1 + k`, `DIGESTk = be(DIGEST[4k : 4k+4])` (R37). -/
def digestWord (s : State) (k : Nat) : RegWord := BitVec.ofNat 32 (be ((s.digest.toList.drop (4 * k)).take 4))

/-- A host read: register 0 is `STATUS`, registers 1 to 8 are `DIGEST0` to `DIGEST7`, and there is no other
(R36 to R38). A read has no side effect. -/
def hostRead (s : State) (register : Nat) : Option RegWord :=
  if register = 0 then some (statusWord s)
  else if register ≤ 8 then some (digestWord s (register - 1))
  else none

end Sys2Proof.Machine
end

