-- ==== Sys2Proof/Machine/UnitPorts.lean ====
section
/-! DEFINITION. The unit-level ports (R110 (b), R140, R227): calls on tagged values that answer a value or an
error and touch no state element of the block (log entry 16). -/

namespace Sys2Proof.Machine

/-- `execute_opcode(opcode, operand, tape)` at the contract boundary: the type tests of R111 step 1, the value
tests of step 2, then R112. An error is the call's result (R227). -/
def executeOpcodePort (c : Config) (opcode operand tape : HV) : Except ErrKind HV :=
  match opcode.asInt, operand.asInt, tape.asMutbytes with
  | some k, some a, some t =>
    if 0 ≤ k ∧ k < 16 then
      (applyTransform (tableEntry c (BitVec.ofInt 4 k)) a (memOfBytes t)).map (fun m => .mutbytes (memBytes m))
    else .error .valueError
  | _, _, _ => .error .typeError

/-- `rotate_tape(tape, n)` at the contract boundary: the type tests of R140 step 1, the value tests of step 2, then
R141. The result is a separate value of kind `BYTES` (R143). -/
def rotateTapePort (tape n : HV) : Except ErrKind HV :=
  match tape.asMutbytes, n.asInt with
  | some t, some z => (rotateTape (memOfBytes t) z).map (fun m => .bytes (memBytes m))
  | _, _ => .error .typeError

end Sys2Proof.Machine
end

