-- ==== Sys2Proof/Safety.lean ====
section
/-! DEFINITION. The terms in which claims are made: the invariant of the reachable states (R41, R183), the effect of
an instruction step (R195), the text of instructions and programs (R98), and the machine of an arbitrary
configuration. -/

namespace Sys2Proof.Machine

/-! ### The invariant -/

/-- The latched parameters of an invocation (R28, R29, R41, R163, R176, R187). -/
structure ParamsLatched (c : Config) (s : State) : Prop where
  named : s.variant ≠ .noVariant
  codeSize : ParamInRange s.codeSize
  tsm : ParamInRange s.tsm
  tapehash1 : s.variant = .tapehash1 → s.tsm = 1
  tapehash2 : s.variant = .tapehash2 → s.codeSize = c.csDefault .tapehash2

/-- What R41 says of the tape and the program in phase `RUN`. -/
structure RunReady (c : Config) (s : State) : Prop where
  tapeLength : s.tlen = c.baseTapeSize * s.tsm
  positive : 1 ≤ s.tlen
  tape : s.tape.len = s.tlen
  program : s.prog.length = s.codeSize
  counter : s.pc ≤ s.codeSize
  words : ∀ w ∈ s.prog, w < 2 ^ (c.addrWidth + 4)
  operands : ∀ w ∈ s.prog, (decodeStored c.addrWidth w).operand < s.tlen

/-- The bounds that the widths of R28 to R31 stand for (D25, log entry 4). -/
structure WithinWidths (s : State) : Prop where
  codeSize : s.codeSize ≤ 65536
  tsm : s.tsm ≤ 65536
  tlen : s.tlen ≤ 2 ^ 32
  pc : s.pc ≤ 65536

/-- The invariant: the relations between the status elements (R183), the contents of the buffers in each phase
(R41, R44, R186), the widths, and the canonical form of the tape. -/
structure Inv (c : Config) (s : State) : Prop where
  errIff : s.phase = .error ↔ s.err ≠ .none
  doneIff : s.phase = .done ↔ s.dvalid = true
  noDigest : s.dvalid = false → s.digest = zeroDigest
  buffersEmpty : s.phase.quiescent = true → s.pre = [] ∧ s.tape = Memory.empty ∧ s.prog = []
  generating : s.phase = .gen → ParamsLatched c s ∧ s.tape = Memory.empty ∧ s.prog = []
  running : s.phase = .run → ParamsLatched c s ∧ RunReady c s
  widths : WithinWidths s
  tapeWf : s.tape.wf

/-! ### Instructions -/

/-- The effect of one completed instruction step with operand `a` and transform `f` under the default schedule
(R195): the new tape at `j` holds what the old one held at `(j + a) mod len`, transformed where that is `a`; `PC` has
advanced by one; every other element is as before. -/
structure StepEffect (f : Byte → Byte) (a : Nat) (s t : State) : Prop where
  frame : t = { s with tape := t.tape, pc := s.pc + 1 }
  length : t.tape.len = s.tape.len
  bytes : ∀ j, j < s.tape.len →
    memRead t.tape j =
      if (j + a) % s.tape.len = a then (memRead s.tape a).map f else memRead s.tape ((j + a) % s.tape.len)

/-- An instruction with operand `a` completes with the effect of R195 wherever its operand is in bounds, and takes
the error sequence with kind ValueError, nothing else changed, where it is not (R111, R193, R224). -/
def ActsOnTape (i : Instr) (a : Nat) (f : Byte → Byte) : Prop :=
  ∀ s : State,
    (a < s.tape.len → ∃ t, exec i s = .next t ∧ StepEffect f a s t) ∧
    (s.tape.len ≤ a → exec i s = .next (raise .valueError s))

/-- The optional hypothesis `P_OP3_EVEN` (R131): no rule of the hardware, only a premise a claim may name. -/
def POp3Even (c : Config) : Prop := ∀ v : Byte, v.toNat % 2 = 0 → (c.opx .op3 v).toNat = v.toNat / 2

/-- The optional hypothesis `P_OP8_EVEN` (R131): no rule of the hardware, only a premise a claim may name. -/
def POp8Even (c : Config) : Prop := ∀ v : Byte, v.toNat % 2 = 0 → (c.opx .op8 v).toNat = v.toNat / 2

/-! ### Commands -/

/-- The type tests of R186 step 1 that fail. -/
def TypeFault (cmd : Command) : Prop :=
  (∀ p, cmd.pre ≠ .bytes p) ∨
  ((cmd.variant = .tapehash1 ∨ cmd.variant = .tapehash3) ∧ ∃ x, cmd.cs = some x ∧ ∀ z, x ≠ .int z) ∨
  ((cmd.variant = .tapehash2 ∨ cmd.variant = .tapehash3) ∧ ∃ x, cmd.tsm = some x ∧ ∀ z, x ≠ .int z)

/-- The value tests of R186 step 2 that fail. -/
def ValueFault (cmd : Command) : Prop :=
  cmd.variant = .noVariant ∨
  ((cmd.variant = .tapehash1 ∨ cmd.variant = .tapehash3) ∧ ∃ z, cmd.cs = some (.int z) ∧ (z < 1 ∨ 65536 < z)) ∨
  ((cmd.variant = .tapehash2 ∨ cmd.variant = .tapehash3) ∧ ∃ z, cmd.tsm = some (.int z) ∧ (z < 1 ∨ 65536 < z))

/-- `CODE_SIZE_eff` in the table of R187. -/
def EffectiveCodeSize (c : Config) (cmd : Command) (n : Nat) : Prop :=
  match cmd.variant, cmd.cs with
  | .tapehash1, some (.int z) | .tapehash3, some (.int z) => (n : Int) = z
  | v, _ => n = c.csDefault v

/-- `TSM_eff` in the table of R187. -/
def EffectiveTsm (c : Config) (cmd : Command) (n : Nat) : Prop :=
  match cmd.variant, cmd.tsm with
  | .tapehash2, some (.int z) | .tapehash3, some (.int z) => (n : Int) = z
  | .tapehash1, _ => n = 1
  | v, _ => n = c.tsmDefault v

/-! ### Text -/

/-- The value of a sequence of digits in a base, the most significant first. -/
def valueOfDigits (base : Nat) (digits : List Nat) : Nat := digits.foldl (fun v d => v * base + d) 0

/-- `t` writes digits below `base`, the letters among them in either case (log entry 18). -/
def WritesDigits (base : Nat) (digits : List Nat) (t : List Char) : Prop :=
  digits ≠ [] ∧ (∀ d ∈ digits, d < base) ∧
    List.Forall₂ (fun d ch => ch = hexDigit d ∨ ch = (hexDigit d).toLower) digits t

/-- `t` writes the operand `a` in decimal, or in hexadecimal with prefix `0x` (R98). -/
def WritesOperand (a : Nat) (t : List Char) : Prop :=
  ∃ digits, (a = valueOfDigits 10 digits ∧ WritesDigits 10 digits t) ∨
    (a = valueOfDigits 16 digits ∧ ∃ u, t = '0' :: 'x' :: u ∧ WritesDigits 16 digits u)

/-- Only blanks: spaces and tabs (log entry 18). -/
def Blanks (t : List Char) : Prop := ∀ ch ∈ t, ch = ' ' ∨ ch = '\t'

/-- `line` is `t`, perhaps with a comment after it (R98). -/
def WithComment (t line : List Char) : Prop := line = t ∨ ∃ comment, line = t ++ ';' :: comment

/-- `line` writes the instruction `i` in the notation of R98: its mnemonic, blanks, its operand, perhaps blanks around
them, perhaps a comment. -/
def WritesInstr (i : Instr) (line : List Char) : Prop :=
  ∃ b0 b1 b2 t, Blanks b0 ∧ Blanks b1 ∧ Blanks b2 ∧ b1 ≠ [] ∧ WritesOperand i.operand t ∧
    WithComment (b0 ++ i.mnemonic.toList ++ b1 ++ t ++ b2) line

/-- `line` writes no instruction: only blanks, perhaps a comment (log entry 18). -/
def WritesNothing (line : List Char) : Prop := ∃ b, Blanks b ∧ WithComment b line

/-- One line of a program, given with the instruction it writes, or with `none` where it writes none. -/
def WritesLine (n : Nat) : Option Instr × List Char → Prop
  | (some i, line) => WritesInstr i line ∧ i.wellFormed n = true ∧ '\n' ∉ line
  | (none, line) => WritesNothing line ∧ '\n' ∉ line

/-! ### Machines and runs -/

/-- One step of the machine of a configuration `c`. -/
def stepWith (c : Config) (s : State) : Host.Outcome State Fault Refusal := sequencer c (execWith c) s

/-- The machine of a configuration `c`: what `Sys2Proof.core` is for the machine's own. -/
def coreWith (c : Config) : Host.Core :=
  { State := State, Fault := Fault, Refusal := Refusal, step := stepWith c, reset := State.reset }

/-- The state after `n` steps of the machine of `c`, where it does not stop. -/
def RunsTo (c : Config) (n : Nat) (s t : State) : Prop := (coreWith c).run n s = .next t

/-- The host has no reset among its actions to come. -/
def NoReset (actions : List HostAction) : Prop := HostAction.reset ∉ actions

/-- A state in a quiescent phase in which the host presents `cmd` (R185) and never asserts reset. -/
structure Presents (cmd : Command) (s : State) : Prop where
  quiescent : s.phase = .idle ∨ s.phase = .done ∨ s.phase = .error
  command : hostNow s = .start cmd
  noReset : NoReset s.host

/-- The end of a run as R200 states it: (`PHASE`, `ERR`, `DVALID`, `DIGEST`). -/
def EndsAs (r : HashResult) (t : State) : Prop :=
  match r with
  | .typeError => t.phase = .error ∧ t.err = .type ∧ t.dvalid = false ∧ t.digest = zeroDigest
  | .valueError => t.phase = .error ∧ t.err = .value ∧ t.dvalid = false ∧ t.digest = zeroDigest
  | .digest d => t.phase = .done ∧ t.err = .none ∧ t.dvalid = true ∧ t.digest = d

end Sys2Proof.Machine
end

