-- ==== Sys2Proof/Certificates/Slice0/Obligations.lean ====
section
/-! DEFINITION. The statements for the provers. -/

open Sys2Proof Sys2Proof.Machine

/-! ### Encoding -/

/-- One word of each opcode, written from the bits of R90 and the vectors of `95_test_vectors.md`, decodes to its
instruction; and a number of more than 36 bits is refused by name, which is the model's choice (log entry 19). -/
def Obligations.SampleWordsDecodeToTheirInstructions : Prop :=
  decode 32 0x000000070 = .ident 7 ∧ decode 32 0x000000051 = .dbl 5 ∧ decode 32 0x000000052 = .half 5 ∧
  decode 32 0x000000003 = .op3 0 ∧ decode 32 0x000000034 = .inc 3 ∧ decode 32 0x506479825 = .dec 1348761986 ∧
  decode 32 0x000000026 = .op6 2 ∧ decode 32 0x000000077 = .quad 7 ∧ decode 32 0x000000018 = .op8 1 ∧
  decode 32 0x000000029 = .nswap 2 ∧ decode 32 0x00000001A = .op10 1 ∧ decode 32 0x00000002B = .op11 2 ∧
  decode 32 0x00000003C = .op12 3 ∧ decode 32 0x00000004D = .op13 4 ∧ decode 32 0x00000005E = .op14 5 ∧
  decode 32 0xFFFFFFFFF = .op15 4294967295 ∧
  ∀ w : Nat, 2 ^ 36 ≤ w → decodeNumber 32 w = .error .widerThanAWord

/-- R91, for an operand field of every width `n` (32, the default of `CFG.ADDR_W`, gives the 36-bit word of the rule):
every word decodes, to the opcode `w[3:0]` and the operand above it, `w[35:4]`, whatever the tape; whether the operand
is in bounds is tested when the instruction executes. -/
def Obligations.EveryWordDecodesToItsTwoFields : Prop :=
  ∀ n w : Nat, w < 2 ^ (n + 4) → ∃ i, decodeNumber n w = .ok i ∧ decode n (BitVec.ofNat (n + 4) w) = i ∧
    i.opcode = w % 16 ∧ i.operand = w / 16 ∧
    ∀ s : State, s.tape.len ≤ w / 16 → exec i s = .next (raise .valueError s)

/-- R92, for an operand field of every width `n` (32 is the default of `CFG.ADDR_W`): encoding a pair gives
`a * 16 + k`; decode after encode and encode after decode are the identity; a pair out of range has no encoding and is a
value error at the contract boundary (on any tape whose indices the field holds). -/
def Obligations.EncodeAndDecodeAreInverse : Prop :=
  ∀ n : Nat,
    (∀ i : Instr, i.wellFormed n = true → decode n (encode n i) = i) ∧
    (∀ w : InstrWord n, (decode n w).wellFormed n = true ∧ encode n (decode n w) = w) ∧
    (∀ k a : Int, 0 ≤ k → k < 16 → 0 ≤ a → a < 2 ^ n →
      ∃ w, encodePair n k a = some w ∧ (w.toNat : Int) = a * 16 + k ∧
        ((decode n w).opcode : Int) = k ∧ ((decode n w).operand : Int) = a) ∧
    (∀ k a : Int, ¬ (0 ≤ k ∧ k < 16 ∧ 0 ≤ a ∧ a < 2 ^ n) →
      encodePair n k a = none ∧
      ∀ (c : Config) (t : Bytes), t.length ≤ 2 ^ n →
        executeOpcodePort c (.int k) (.int a) (.mutbytes t) = .error .valueError)

/-- R99, for an operand field of every width (32 is the default): exactly one row of the opcode table matches a word,
and it names the instruction the decoder reads. -/
def Obligations.ExactlyOneTableRowMatchesAWord : Prop :=
  ∀ (n : Nat) (w : InstrWord n), ∃ r, r ∈ opcodeTable ∧ r.Matches w ∧ r.mnemonic = (decode n w).mnemonic ∧
    ∀ r', r' ∈ opcodeTable → r'.Matches w → r' = r

/-- R98, for an operand field of every width (32 is the default): a line that writes an instruction, its operand in
decimal or in hexadecimal with prefix `0x`, with or without a comment, is read as that instruction, and as an error
where the operand has no encoding (R92); so is the model's own full-width print. How blanks separate words, that the
letters of hexadecimal digits may have either case, and that a line of blanks and comment gives no instruction are the
model's reading (DESIGN CHOICE, log entry 18). -/
def Obligations.WrittenInstructionsAreReadBack : Prop :=
  (∀ (n : Nat) (i : Instr) (line : List Char), WritesInstr i line →
    (i.wellFormed n = true → parseLine n line = .ok (some i)) ∧
    (i.wellFormed n = false → parseLine n line = .error .operandTooLarge)) ∧
  (∀ (n : Nat) (line : List Char), WritesNothing line → parseLine n line = .ok none) ∧
  (∀ (n : Nat) (i : Instr) (comment : List Char), i.wellFormed n = true →
    parseLine n (printInstr n i) = .ok (some i) ∧ parseLine n (printInstr n i ++ ';' :: comment) = .ok (some i))

/-! ### The opcodes -/

/-- R113: the sixteen entries of the opcode table, for every configuration, and that the meaning of each instruction is
the one step all share, with the entry its opcode selects. -/
def Obligations.OpcodeTableHasTheSixteenTransforms : Prop :=
  (∀ (c : Config) (v : Byte),
    tableEntry c 0 v = v ∧ (tableEntry c 1 v).toNat = v.toNat * 2 % 256 ∧ (tableEntry c 2 v).toNat = v.toNat / 2 ∧
    tableEntry c 3 v = c.opx .op3 v ∧ (tableEntry c 4 v).toNat = (v.toNat + 1) % 256 ∧
    ((tableEntry c 5 v).toNat : Int) = ((v.toNat : Int) - 1) % 256 ∧ tableEntry c 6 v = c.opx .op6 v ∧
    (tableEntry c 7 v).toNat = v.toNat * 4 % 256 ∧ tableEntry c 8 v = c.opx .op8 v ∧
    (tableEntry c 9 v).toNat = (v.toNat <<< 4 ||| v.toNat >>> 4) % 256 ∧
    tableEntry c 10 v = c.opx .op10 v ∧ tableEntry c 11 v = c.opx .op11 v ∧ tableEntry c 12 v = c.opx .op12 v ∧
    tableEntry c 13 v = c.opx .op13 v ∧ tableEntry c 14 v = c.opx .op14 v ∧ tableEntry c 15 v = c.opx .op15 v) ∧
  (∀ (i : Instr) (s : State),
    exec i s = instructionStep cfg i.opcode (tableEntry cfg (BitVec.ofNat 4 i.opcode)) i.operand s)

/-- R114, in a whole step. That the tape is rotated by the operand (`ActsOnTape`) is the default schedule of R8, R194
and R195, which the machine's configuration takes (DESIGN CHOICE, log entry 2): R114 names only `CFG.ROT_SCHEDULE`. -/
def Obligations.IdentKeepsTheByteAndStillRotates : Prop :=
  ∀ a : Nat, ActsOnTape (.ident a) a (fun v => v) ∧
    (a < 2 ^ 32 → (encode cfg.addrWidth (.ident a)).toNat = a * 16)

/-- R115, in a whole step. That the tape is rotated by the operand (`ActsOnTape`) is the default schedule of R8, R194
and R195, which the machine's configuration takes (DESIGN CHOICE, log entry 2): R115 says nothing of it. -/
def Obligations.DblDoublesTheAddressedByte : Prop :=
  ∀ a : Nat, ActsOnTape (.dbl a) a (fun v => BitVec.ofNat 8 (v.toNat * 2 % 256)) ∧
    (a < 2 ^ 32 → (encode cfg.addrWidth (.dbl a)).toNat = a * 16 + 1) ∧
    byteTransform cfg (.dbl a) 0x00 = 0x00 ∧ byteTransform cfg (.dbl a) 0x01 = 0x02 ∧
    byteTransform cfg (.dbl a) 0x7F = 0xFE ∧
    byteTransform cfg (.dbl a) 0x80 = 0x00 ∧ byteTransform cfg (.dbl a) 0xFF = 0xFE ∧
    ∀ v, (byteTransform cfg (.dbl a) v).toNat % 2 = 0 ∧ byteTransform cfg (.dbl a) v = v <<< 1

/-- R116, in a whole step. That the tape is rotated by the operand (`ActsOnTape`) is the default schedule of R8, R194
and R195, which the machine's configuration takes (DESIGN CHOICE, log entry 2): R116 says nothing of it. -/
def Obligations.HalfHalvesTheAddressedByte : Prop :=
  ∀ a : Nat, ActsOnTape (.half a) a (fun v => BitVec.ofNat 8 (v.toNat / 2)) ∧
    (a < 2 ^ 32 → (encode cfg.addrWidth (.half a)).toNat = a * 16 + 2) ∧
    byteTransform cfg (.half a) 0x00 = 0x00 ∧ byteTransform cfg (.half a) 0x01 = 0x00 ∧
    byteTransform cfg (.half a) 0x02 = 0x01 ∧ byteTransform cfg (.half a) 0x03 = 0x01 ∧
    byteTransform cfg (.half a) 0x80 = 0x40 ∧ byteTransform cfg (.half a) 0xFF = 0x7F ∧
    ∀ v, (byteTransform cfg (.half a) v).toNat ≤ 127 ∧ byteTransform cfg (.half a) v = v >>> 1

/-- R118, in a whole step. That the tape is rotated by the operand (`ActsOnTape`) is the default schedule of R8, R194
and R195, which the machine's configuration takes (DESIGN CHOICE, log entry 2): R118 says nothing of it. -/
def Obligations.IncAddsOneToTheAddressedByte : Prop :=
  ∀ a : Nat, ActsOnTape (.inc a) a (fun v => BitVec.ofNat 8 ((v.toNat + 1) % 256)) ∧
    (a < 2 ^ 32 → (encode cfg.addrWidth (.inc a)).toNat = a * 16 + 4) ∧
    byteTransform cfg (.inc a) 0x00 = 0x01 ∧ byteTransform cfg (.inc a) 0x04 = 0x05 ∧
    byteTransform cfg (.inc a) 0x7F = 0x80 ∧
    byteTransform cfg (.inc a) 0xFE = 0xFF ∧ byteTransform cfg (.inc a) 0xFF = 0x00

/-- R119, in a whole step. That the tape is rotated by the operand (`ActsOnTape`) is the default schedule of R8, R194
and R195, which the machine's configuration takes (DESIGN CHOICE, log entry 2): R119 says nothing of it. That `DEC`
and `INC` undo each other R119 marks as derived. -/
def Obligations.DecTakesOneFromTheAddressedByte : Prop :=
  ∀ a : Nat, ActsOnTape (.dec a) a (fun v => BitVec.ofNat 8 ((v.toNat + 255) % 256)) ∧
    (a < 2 ^ 32 → (encode cfg.addrWidth (.dec a)).toNat = a * 16 + 5) ∧
    byteTransform cfg (.dec a) 0x00 = 0xFF ∧ byteTransform cfg (.dec a) 0x01 = 0x00 ∧
    byteTransform cfg (.dec a) 0x80 = 0x7F ∧ byteTransform cfg (.dec a) 0xFF = 0xFE ∧
    ∀ v, ((byteTransform cfg (.dec a) v).toNat : Int) = ((v.toNat : Int) - 1) % 256 ∧
      byteTransform cfg (.dec a) (byteTransform cfg (.inc a) v) = v ∧
      byteTransform cfg (.inc a) (byteTransform cfg (.dec a) v) = v

/-- R121, in a whole step. That the tape is rotated by the operand (`ActsOnTape`) is the default schedule of R8, R194
and R195, which the machine's configuration takes (DESIGN CHOICE, log entry 2): R121 says nothing of it. That `QUAD`
is `DBL` twice R121 marks as derived. -/
def Obligations.QuadQuadruplesTheAddressedByte : Prop :=
  ∀ a : Nat, ActsOnTape (.quad a) a (fun v => BitVec.ofNat 8 (v.toNat * 4 % 256)) ∧
    (a < 2 ^ 32 → (encode cfg.addrWidth (.quad a)).toNat = a * 16 + 7) ∧
    byteTransform cfg (.quad a) 0x00 = 0x00 ∧ byteTransform cfg (.quad a) 0x01 = 0x04 ∧
    byteTransform cfg (.quad a) 0x05 = 0x14 ∧
    byteTransform cfg (.quad a) 0x3F = 0xFC ∧ byteTransform cfg (.quad a) 0x40 = 0x00 ∧
    byteTransform cfg (.quad a) 0x41 = 0x04 ∧ byteTransform cfg (.quad a) 0x80 = 0x00 ∧
    byteTransform cfg (.quad a) 0xC3 = 0x0C ∧ byteTransform cfg (.quad a) 0xFF = 0xFC ∧
    ∀ v, (byteTransform cfg (.quad a) v).toNat % 4 = 0 ∧ byteTransform cfg (.quad a) v = v <<< 2 ∧
      byteTransform cfg (.quad a) v = byteTransform cfg (.dbl a) (byteTransform cfg (.dbl a) v)

/-- R123, in a whole step. That the tape is rotated by the operand (`ActsOnTape`) is the default schedule of R8, R194
and R195, which the machine's configuration takes (DESIGN CHOICE, log entry 2): R123 says nothing of it. -/
def Obligations.NswapExchangesTheNibblesOfTheAddressedByte : Prop :=
  ∀ a : Nat, ActsOnTape (.nswap a) a (fun v => BitVec.ofNat 8 (v.toNat % 16 * 16 + v.toNat / 16)) ∧
    (a < 2 ^ 32 → (encode cfg.addrWidth (.nswap a)).toNat = a * 16 + 9) ∧
    byteTransform cfg (.nswap a) 0x00 = 0x00 ∧ byteTransform cfg (.nswap a) 0x0F = 0xF0 ∧
    byteTransform cfg (.nswap a) 0xF0 = 0x0F ∧ byteTransform cfg (.nswap a) 0xA5 = 0x5A ∧
    byteTransform cfg (.nswap a) 0xFF = 0xFF ∧ byteTransform cfg (.nswap a) 0x12 = 0x21 ∧
    ∀ v, (byteTransform cfg (.nswap a) v).toNat = (v.toNat <<< 4 ||| v.toNat >>> 4) % 256 ∧
      byteTransform cfg (.nswap a) (byteTransform cfg (.nswap a) v) = v ∧
      byteTransform cfg (.nswap a) v = v.rotateLeft 4 ∧ byteTransform cfg (.nswap a) v = v.rotateRight 4 ∧
      (v.toNat % 16 = v.toNat / 16 → byteTransform cfg (.nswap a) v = v)

/-- R117, R120, R122, R124 to R129, in a whole step: each open opcode applies its own `CFG.OPX[k]` to the addressed
byte and never stops. The values of `OPX` are opaque: the statement holds for every choice of them. That the tape is
rotated by the operand (`ActsOnTape`) is the default schedule of R8, R194 and R195, which the machine's configuration
takes (DESIGN CHOICE, log entry 2): none of these rules says it. -/
def Obligations.OpenOpcodesApplyTheirConfiguredTransforms : Prop :=
  ∀ a : Nat,
    (ActsOnTape (.op3 a) a (cfg.opx .op3) ∧
      (a < 2 ^ 32 → (encode cfg.addrWidth (.op3 a)).toNat = a * 16 + 3)) ∧
    (ActsOnTape (.op6 a) a (cfg.opx .op6) ∧
      (a < 2 ^ 32 → (encode cfg.addrWidth (.op6 a)).toNat = a * 16 + 6)) ∧
    (ActsOnTape (.op8 a) a (cfg.opx .op8) ∧
      (a < 2 ^ 32 → (encode cfg.addrWidth (.op8 a)).toNat = a * 16 + 8)) ∧
    (ActsOnTape (.op10 a) a (cfg.opx .op10) ∧
      (a < 2 ^ 32 → (encode cfg.addrWidth (.op10 a)).toNat = a * 16 + 10)) ∧
    (ActsOnTape (.op11 a) a (cfg.opx .op11) ∧
      (a < 2 ^ 32 → (encode cfg.addrWidth (.op11 a)).toNat = a * 16 + 11)) ∧
    (ActsOnTape (.op12 a) a (cfg.opx .op12) ∧
      (a < 2 ^ 32 → (encode cfg.addrWidth (.op12 a)).toNat = a * 16 + 12)) ∧
    (ActsOnTape (.op13 a) a (cfg.opx .op13) ∧
      (a < 2 ^ 32 → (encode cfg.addrWidth (.op13 a)).toNat = a * 16 + 13)) ∧
    (ActsOnTape (.op14 a) a (cfg.opx .op14) ∧
      (a < 2 ^ 32 → (encode cfg.addrWidth (.op14 a)).toNat = a * 16 + 14)) ∧
    (ActsOnTape (.op15 a) a (cfg.opx .op15) ∧
      (a < 2 ^ 32 → (encode cfg.addrWidth (.op15 a)).toNat = a * 16 + 15))

/-- R131: under the optional hypotheses, and only as their consequence, opcodes 3 and 8 halve an even byte. -/
def Obligations.NamedHypothesesMakeOpcodesThreeAndEightHalveEvenBytes : Prop :=
  ∀ (c : Config) (v : Byte), v.toNat % 2 = 0 →
    (POp3Even c → executeOpcodePort c (.int 3) (.int 0) (.mutbytes [v]) =
      .ok (.mutbytes [BitVec.ofNat 8 (v.toNat / 2)])) ∧
    (POp8Even c → executeOpcodePort c (.int 8) (.int 0) (.mutbytes [v]) =
      .ok (.mutbytes [BitVec.ofNat 8 (v.toNat / 2)]))

/-- R193, R194: the instruction step under every configuration. The operand is tested first; the transform replaces
the addressed byte; the scheduled amount is tested; the tape as the transform left it is rotated by it; `PC` advances;
every other element is as before. Where a test fails the error sequence is all that happens. -/
def Obligations.InstructionStepTransformsThenRotatesByTheSchedule : Prop :=
  ∀ (c : Config) (i : Instr) (s : State),
    (s.tape.len ≤ i.operand → execWith c i s = .next (raise .valueError s)) ∧
    (i.operand < s.tape.len →
      ((c.rotSchedule s.pc i.opcode i.operand s.tlen < 0 ∨
          (s.tape.len : Int) ≤ c.rotSchedule s.pc i.opcode i.operand s.tlen) →
        execWith c i s = .next (raise .valueError s)) ∧
      (∀ n : Nat, c.rotSchedule s.pc i.opcode i.operand s.tlen = n → n < s.tape.len →
        ∃ t, execWith c i s = .next t ∧ t = { s with tape := t.tape, pc := s.pc + 1 } ∧
          t.tape.len = s.tape.len ∧
          ∀ j, j < s.tape.len → memRead t.tape j =
            if (j + n) % s.tape.len = i.operand then (memRead s.tape i.operand).map (byteTransform c i)
            else memRead s.tape ((j + n) % s.tape.len)))

/-- R145, which the spec marks as derived from R141 and R144: under the default schedule the transformed byte moves to
index 0 and the byte of index 0 to index `TLEN - a`; operand 0 moves nothing; on a tape of one byte nothing ever
moves. Every instruction whose operand is in bounds completes. -/
def Obligations.DefaultRotationBringsTheTransformedByteToTheFront : Prop :=
  ∀ (i : Instr) (s : State), i.operand < s.tape.len →
    ∃ t, exec i s = .next t ∧
      memRead t.tape 0 = (memRead s.tape i.operand).map (byteTransform cfg i) ∧
      (0 < i.operand → memRead t.tape (s.tape.len - i.operand) = memRead s.tape 0) ∧
      (i.operand = 0 → ∀ j, j ≠ 0 → memRead t.tape j = memRead s.tape j) ∧
      (s.tape.len = 1 → i.operand = 0)

/-- R224, R226: an instruction whose operand is outside the tape changes no tape byte and does not advance `PC`; the
error sequence is all it does. -/
def Obligations.AnOperandOutsideTheTapeTakesTheErrorSequence : Prop :=
  ∀ (i : Instr) (s : State), s.tape.len ≤ i.operand →
    exec i s = .next { s with
      err := .value, dvalid := false, digest := zeroDigest, pre := [], tape := Memory.empty, prog := [],
      phase := .error }

/-! ### The unit ports -/

/-- R111, R112: the execution unit at its contract boundary. -/
def Obligations.ExecuteOpcodePortMeetsItsContract : Prop :=
  ∀ (c : Config) (opcode operand tape : HV),
    (((∀ k, opcode ≠ .int k) ∨ (∀ a, operand ≠ .int a) ∨ (∀ t, tape ≠ .mutbytes t)) →
      executeOpcodePort c opcode operand tape = .error .typeError) ∧
    (∀ k a t, opcode = .int k → operand = .int a → tape = .mutbytes t →
      ((t.length = 0 ∨ k < 0 ∨ 16 ≤ k ∨ a < 0 ∨ (t.length : Int) ≤ a) →
        executeOpcodePort c opcode operand tape = .error .valueError) ∧
      (0 ≤ k → k < 16 → 0 ≤ a → a < t.length →
        ∃ r : Bytes, executeOpcodePort c opcode operand tape = .ok (.mutbytes r) ∧ r.length = t.length ∧
          ∀ j : Nat, r[j]? =
            if (j : Int) = a then (t[j]?).map (tableEntry c (BitVec.ofInt 4 k)) else t[j]?))

/-- R140, R141: the rotator at its contract boundary. -/
def Obligations.RotateTapePortMeetsItsContract : Prop :=
  ∀ (tape n : HV),
    (((∀ t, tape ≠ .mutbytes t) ∨ (∀ z, n ≠ .int z)) → rotateTapePort tape n = .error .typeError) ∧
    (∀ t z, tape = .mutbytes t → n = .int z →
      ((t.length = 0 ∨ z < 0 ∨ (t.length : Int) ≤ z) → rotateTapePort tape n = .error .valueError) ∧
      (∀ m : Nat, z = m → m < t.length →
        ∃ r : Bytes, rotateTapePort tape n = .ok (.bytes r) ∧ r = t.drop m ++ t.take m ∧
          r.length = t.length ∧ ∀ j, j < t.length → r[j]? = t[(j + m) % t.length]?))

/-- R142, which the spec marks as derived from R141: the laws of rotation, on the tape in its canonical form. -/
def Obligations.RotationObeysItsLaws : Prop :=
  ∀ m : Memory, m.wf → 0 < m.len →
    (∀ n, n < m.len → (memRotl m n).len = m.len ∧ (memBytes (memRotl m n)).Perm (memBytes m)) ∧
    memRotl m 0 = m ∧
    (∀ a b, a < m.len → b < m.len → memRotl (memRotl m a) b = memRotl m ((a + b) % m.len)) ∧
    (∀ k, 1 ≤ k → k ≤ m.len - 1 → memRotl (memRotl m k) (m.len - k) = m) ∧
    memRotl (memRotl m 0) 0 = m ∧ rotateTape m m.len = .error .valueError ∧
    (m.len = 1 → ∀ n : Int, (∃ r, rotateTape m n = .ok r) ↔ n = 0)

/-! ### Seed expansion and generation -/

/-- R151, R12: the key of each variant. -/
def Obligations.KeyIsThePreimageThenTheUsedParameters : Prop :=
  (∀ (p : Bytes) (cs tsm : Nat),
    cfg.keyser .tapehash1 p cs tsm = p ++ u32be cs ∧
    cfg.keyser .tapehash2 p cs tsm = p ++ u32be tsm ∧
    cfg.keyser .tapehash3 p cs tsm = p ++ u32be cs ++ u32be tsm ∧
    (cfg.keyser .tapehash1 p cs tsm).length = p.length + 4 ∧
    (cfg.keyser .tapehash2 p cs tsm).length = p.length + 4 ∧
    (cfg.keyser .tapehash3 p cs tsm).length = p.length + 8) ∧
  (∀ x : Nat, x < 2 ^ 32 → (u32be x).map BitVec.toNat =
    [x / 2 ^ 24, x / 2 ^ 16 % 256, x / 2 ^ 8 % 256, x % 256] ∧ be (u32be x) = x) ∧
  (∀ b : Bytes, be b =
    (Finset.range b.length).sum fun i => (b.getD i 0).toNat * 256 ^ (b.length - 1 - i)) ∧
  (∀ tsm, cfg.keyser .tapehash1 [0x74, 0x65, 0x73, 0x74] 4 tsm = [0x74, 0x65, 0x73, 0x74, 0x00, 0x00, 0x00, 0x04])

/-- R153, R161, R171 to R173, R190, for every configuration that meets its constraints and every number `B` of operand
bytes: the generation step makes one request of `TLEN + CODE_SIZE * (1 + B)` bytes, fills the tape with the first
`TLEN` of them and each word of the program from its group of `1 + B` after them, sets `PC` to 0 and enters `RUN`;
every other element is as before. A legal configuration whose operand field is not 32 bits wide must hold every index
of its longest tape (DEDUCED, log entry 3); with 32 bits each does. -/
def Obligations.GenerationBuildsTapeAndProgramFromOneStream : Prop :=
  ∀ (c : Config) (s : State), c.Legal → s.phase = .gen → hostNow s ≠ .reset → ParamInRange s.tsm →
    ∃ (stream : Bytes) (t : State),
      stream = (c.expand (c.keyser s.variant s.pre s.codeSize s.tsm)
        (c.baseTapeSize * s.tsm + s.codeSize * (1 + c.operandSeedBytes))).toList ∧
      stream.length = c.baseTapeSize * s.tsm + s.codeSize * (1 + c.operandSeedBytes) ∧
      stepWith c s = .next t ∧
      t = { s with
        host := s.host.tail, tlen := c.baseTapeSize * s.tsm, tape := t.tape, prog := t.prog, pc := 0,
        phase := .run } ∧
      t.tape.len = t.tlen ∧ (∀ i, i < t.tlen → memRead t.tape i = stream[i]?) ∧
      t.prog.length = s.codeSize ∧
      ∀ j, j < s.codeSize → ∃ w : Nat, t.prog[j]? = some w ∧
        w =
          ((Finset.range c.operandSeedBytes).sum fun i =>
            (stream.getD (t.tlen + (1 + c.operandSeedBytes) * j + 1 + i) 0).toNat *
              256 ^ (c.operandSeedBytes - 1 - i)) % t.tlen * 16 +
          (stream.getD (t.tlen + (1 + c.operandSeedBytes) * j) 0).toNat % 16

/-- R160: the tape length and its defensive test, for every configuration, legal or not. That a failing test leaves
`TLEN` as it was is read from R13 and R226, not from R160 (DEDUCED, log entry 15). -/
def Obligations.TapeLengthIsComputedAndTested : Prop :=
  ∀ (c : Config) (s : State), s.phase = .gen → hostNow s ≠ .reset →
    (c.baseTapeSize * s.tsm < 1 →
      stepWith c s = .next (raise .valueError { s with host := s.host.tail })) ∧
    (1 ≤ c.baseTapeSize * s.tsm →
      ∃ t, stepWith c s = .next t ∧ t.tlen = c.baseTapeSize * s.tsm ∧ t.tape.len = t.tlen ∧ t.phase = .run)

/-- R175: every instruction of a generated program has a legal opcode and an operand within the tape, so that none
can raise on a tape of that length. -/
def Obligations.GeneratedInstructionsAreInBoundsAndNeverRaise : Prop :=
  ∀ s t : State, s.phase = .gen → ParamInRange s.tsm → hostNow s ≠ .reset → step s = .next t →
    ∀ w, w ∈ t.prog →
      w < 2 ^ 36 ∧ (decodeStored cfg.addrWidth w).opcode < 16 ∧ (decodeStored cfg.addrWidth w).operand < t.tlen ∧
      (decodeStored cfg.addrWidth w).operand < 2 ^ 32 ∧
      ∀ u : State, u.tape.len = t.tlen →
        ∃ u', exec (decodeStored cfg.addrWidth w) u = .next u' ∧ u'.phase = u.phase ∧ u'.pc = u.pc + 1 ∧
          u'.err = u.err

/-! ### The driver -/

/-- R192: in `RUN` with `PC < CODE_SIZE` a step fetches `PROG[PC]`, decodes it and is the meaning of that instruction in
the state whose present host action is gone (log entry 5: the host's actions are the model's field); the fetch cannot
fault where the program has `CODE_SIZE` words. -/
def Obligations.AStepRunsTheDecodedInstruction : Prop :=
  ∀ s : State, s.phase = .run → s.pc < s.codeSize → hostNow s ≠ .reset →
    (∀ w, s.prog[s.pc]? = some w →
      step s = exec (decodeStored cfg.addrWidth w) { s with host := s.host.tail }) ∧
    (∀ i : Instr, i.wellFormed cfg.addrWidth = true → s.prog[s.pc]? = some (encode cfg.addrWidth i).toNat →
      step s = exec i { s with host := s.host.tail }) ∧
    (s.prog.length = s.codeSize → ∃ (w : Nat) (t : State), s.prog[s.pc]? = some w ∧ step s = .next t)

/-- A word that a harness places is the next instruction to run (the model's harness, log entry 11). -/
def Obligations.AWordPlacedForFetchIsTheNextInstruction : Prop :=
  ∀ (s : State) (nbits w : Nat) (i : Instr), decodeTableWord nbits w = some i →
    step (s.withFetchWord nbits w) = exec i (s.withFetchWord nbits w)

/-- R185: a command is accepted in a quiescent phase and ignored in `GEN` and `RUN`, where no host action but reset
makes a difference (R181, R201). -/
def Obligations.CommandsAreAcceptedOnlyInQuiescentPhases : Prop :=
  ∀ (s : State) (action : HostAction) (rest : List HostAction),
    (∀ cmd, action = .start cmd → (s.phase = .idle ∨ s.phase = .done ∨ s.phase = .error) →
      step { s with host := action :: rest } = .next (startStep cfg cmd { s with host := rest })) ∧
    (action ≠ .reset → (s.phase = .gen ∨ s.phase = .run) →
      step { s with host := action :: rest } = step { s with host := .nothing :: rest })

/-- R186 to R188: an accepted `START` raises TypeError on any failing type test, else ValueError on any failing value
test, else latches its arguments and the effective parameters of R187. -/
def Obligations.StartValidatesThenLatches : Prop :=
  ∀ (s : State) (cmd : Command), (s.phase = .idle ∨ s.phase = .done ∨ s.phase = .error) →
    hostNow s = .start cmd →
    (TypeFault cmd → step s = .next { s with
      host := s.host.tail, err := .type, dvalid := false, digest := zeroDigest, pre := [], tape := Memory.empty,
      prog := [], phase := .error }) ∧
    (¬ TypeFault cmd → ValueFault cmd → step s = .next { s with
      host := s.host.tail, err := .value, dvalid := false, digest := zeroDigest, pre := [], tape := Memory.empty,
      prog := [], phase := .error }) ∧
    (¬ TypeFault cmd → ¬ ValueFault cmd →
      ∃ (p : Bytes) (cs tsm : Nat), cmd.pre = .bytes p ∧ EffectiveCodeSize cfg cmd cs ∧ EffectiveTsm cfg cmd tsm ∧
        step s = .next { s with
          host := s.host.tail, err := .none, dvalid := false, digest := zeroDigest, variant := cmd.variant, pre := p,
          codeSize := cs, tsm := tsm, tape := Memory.empty, prog := [], phase := .gen })

/-- R189: the argument a variant does not use has no effect, whatever it holds; `variant = 0` is a value error. -/
def Obligations.UnusedArgumentsHaveNoEffect : Prop :=
  ∀ (s : State) (cmd : Command) (x : Option HV) (rest : List HostAction),
    (cmd.variant = .tapehash1 →
      step { s with host := .start { cmd with tsm := x } :: rest } = step { s with host := .start cmd :: rest }) ∧
    (cmd.variant = .tapehash2 →
      step { s with host := .start { cmd with cs := x } :: rest } = step { s with host := .start cmd :: rest }) ∧
    (∀ p, cmd.variant = .noVariant → cmd.pre = .bytes p →
      (s.phase = .idle ∨ s.phase = .done ∨ s.phase = .error) →
      step { s with host := .start cmd :: rest } = .next (raise .valueError { s with host := rest }))

/-- R182: the phase transitions are exactly those of the table. The model's idle step, in a quiescent phase without a
command and without reset, is no transition of the machine (log entry 6; `QuiescentPhasesWaitForTheHost` states it). -/
def Obligations.PhaseTransitionsAreThoseOfTheTable : Prop :=
  ∀ s t : State, step s = .next t →
    ((s.phase = .idle ∨ s.phase = .done ∨ s.phase = .error) →
      hostNow s = .reset ∨ ∃ cmd, hostNow s = .start cmd) →
    (hostNow s = .reset ∧ t.phase = .idle) ∨
    (hostNow s ≠ .reset ∧
      ((∃ cmd, hostNow s = .start cmd ∧ (s.phase = .idle ∨ s.phase = .done ∨ s.phase = .error) ∧
          ((¬ TypeFault cmd ∧ ¬ ValueFault cmd ∧ t.phase = .gen) ∨
           ((TypeFault cmd ∨ ValueFault cmd) ∧ t.phase = .error))) ∨
       (s.phase = .gen ∧ 1 ≤ cfg.baseTapeSize * s.tsm ∧ t.phase = .run) ∨
       (s.phase = .gen ∧ cfg.baseTapeSize * s.tsm < 1 ∧ t.phase = .error ∧ t.err = .value) ∨
       (s.phase = .run ∧ s.pc < s.codeSize ∧ t.phase = .run) ∨
       (s.phase = .run ∧ s.pc < s.codeSize ∧ t.phase = .error ∧ t.err = .value) ∨
       (s.phase = .run ∧ s.pc = s.codeSize ∧ t.phase = .done)))

/-- R196, R74, R177: a step that stays in `RUN` advances `PC` by one and keeps the program, the preimage, the
parameters, the tape's length, the status and the digest. -/
def Obligations.RunStepsAdvanceTheCounterAndKeepTheProgram : Prop :=
  ∀ s t : State, s.phase = .run → step s = .next t → t.phase = .run →
    t = { s with host := s.host.tail, pc := s.pc + 1, tape := t.tape } ∧ t.tape.len = s.tape.len ∧
      s.pc < s.codeSize

/-- R197, R212: finalization. The last clause, `FINALIZE(b) = EXPAND(b, 32)`, is the default R211 decides (R8), which
the machine's configuration takes (DESIGN CHOICE, log entry 2). -/
def Obligations.FinalizationWritesTheDigestOfTheWholeTape : Prop :=
  ∀ s : State, s.phase = .run → s.pc = s.codeSize → hostNow s ≠ .reset →
    ∃ b : Bytes, b.length = s.tape.len ∧ (∀ j, b[j]? = memRead s.tape j) ∧
      step s = .next { s with
        host := s.host.tail, digest := cfg.finalize b, dvalid := true, pre := [], tape := Memory.empty, prog := [],
        phase := .done } ∧
      cfg.finalize b = cfg.expand b 32

/-- R44: at the end of an invocation, by finalization or by the error sequence, the buffers are emptied and the other
elements keep their last values. -/
def Obligations.BuffersAreEmptiedAtTheEndOfAnInvocation : Prop :=
  ∀ s t : State, step s = .next t → (t.phase = .done ∨ t.phase = .error) →
    (s.phase ≠ t.phase ∨ ∃ cmd, hostNow s = .start cmd) →
    t.pre = [] ∧ t.tape = Memory.empty ∧ t.prog = [] ∧
    t.variant = s.variant ∧ t.codeSize = s.codeSize ∧ t.tsm = s.tsm ∧ t.tlen = s.tlen ∧ t.pc = s.pc

/-- R214: a step leaves the digest alone, or clears it, or is the finalization step, which writes it whole and sets
`DVALID`. -/
def Obligations.DigestIsWrittenOnlyByFinalization : Prop :=
  ∀ s t : State, step s = .next t →
    (t.digest = s.digest ∧ t.dvalid = s.dvalid) ∨ (t.digest = zeroDigest ∧ t.dvalid = false) ∨
    (s.phase = .run ∧ s.pc = s.codeSize ∧ t.digest = cfg.finalize (memBytes s.tape) ∧ t.dvalid = true ∧
      t.phase = .done)

/-- R226: every step that raises an error (it enters `ERROR`, or is an accepted command that ends there) discards its
own writes and performs the error sequence instead; and what the model's `raise` writes. -/
def Obligations.ErrorSequenceWritesTheStatusAndEmptiesTheBuffers : Prop :=
  (∀ s t : State, step s = .next t → t.phase = .error → (s.phase ≠ .error ∨ ∃ cmd, hostNow s = .start cmd) →
    (t.err = .type ∨ t.err = .value) ∧
    t = { s with
      host := s.host.tail, err := t.err, dvalid := false, digest := zeroDigest, pre := [], tape := Memory.empty,
      prog := [], phase := .error }) ∧
  ∀ s : State,
    raise .typeError s = { s with
      err := .type, dvalid := false, digest := zeroDigest, pre := [], tape := Memory.empty, prog := [],
      phase := .error } ∧
    raise .valueError s = { s with
      err := .value, dvalid := false, digest := zeroDigest, pre := [], tape := Memory.empty, prog := [],
      phase := .error }

/-- R181, R228, R240: without a command and without reset a quiescent phase keeps all its state (the step that
passes is the model's, log entry 6); `ERROR` is left only by an accepted `START` or by reset. -/
def Obligations.QuiescentPhasesWaitForTheHost : Prop :=
  (∀ s : State, (s.phase = .idle ∨ s.phase = .done ∨ s.phase = .error) → hostNow s ≠ .reset →
    (∀ cmd, hostNow s ≠ .start cmd) → step s = .next { s with host := s.host.tail }) ∧
  (∀ s t : State, s.phase = .error → step s = .next t → t.phase ≠ .error →
    hostNow s = .reset ∨ ∃ cmd, hostNow s = .start cmd ∧ t.err = .none)

/-- R250, R45: reset in any state. -/
def Obligations.ResetGivesEveryElementItsResetValue : Prop :=
  ∀ s : State, hostNow s = .reset →
    step s = .next
      { phase := .idle, err := .none, dvalid := false, variant := .noVariant, codeSize := 0, tsm := 0, tlen := 0,
        pc := 0, pre := [], tape := Memory.empty, prog := [], digest := zeroDigest, host := s.host.tail } ∧
    hostRead State.reset 0 = some 0 ∧ (∀ k, k < 8 → hostRead State.reset (1 + k) = some 0) ∧
    State.reset.phase = .idle

/-! ### The host's registers -/

/-- R36: the fields of `STATUS`, the level outputs, and that a host write is ignored. -/
def Obligations.StatusRegisterHasItsFields : Prop :=
  (∀ s : State, ∃ w : RegWord, hostRead s 0 = some w ∧
    w.toNat % 8 = (match s.phase with | .idle => 0 | .gen => 1 | .run => 2 | .done => 3 | .error => 4) ∧
    w.toNat / 8 % 4 = (match s.err with | .none => 0 | .type => 1 | .value => 2) ∧
    w.toNat / 32 % 2 = (if s.dvalid then 1 else 0) ∧ w.toNat / 64 = 0 ∧
    (busyOut s = true ↔ s.phase = .gen ∨ s.phase = .run) ∧ (doneOut s = true ↔ s.phase = .done) ∧
    (errOut s = true ↔ s.phase = .error)) ∧
  (∀ (s : State) (r : Nat) (v : RegWord) (rest : List HostAction),
    step { s with host := .write r v :: rest } = step { s with host := .nothing :: rest })

/-- R37: each digest register holds four bytes of the digest, the first most significant, a write to it is ignored, and
it is 0 after reset; there is no register after the eighth (R38). -/
def Obligations.DigestRegistersAreBigEndianWords : Prop :=
  (∀ (s : State) (k : Nat), k < 8 → ∃ (w : RegWord) (b0 b1 b2 b3 : Byte),
    hostRead s (1 + k) = some w ∧
    s.digest.toList[4 * k]? = some b0 ∧ s.digest.toList[4 * k + 1]? = some b1 ∧
    s.digest.toList[4 * k + 2]? = some b2 ∧ s.digest.toList[4 * k + 3]? = some b3 ∧
    w.toNat = b0.toNat * 2 ^ 24 + b1.toNat * 2 ^ 16 + b2.toNat * 2 ^ 8 + b3.toNat) ∧
  (∀ (s : State) (r : Nat), 8 < r → hostRead s r = none) ∧
  (∀ (s : State) (k : Nat) (v : RegWord) (rest : List HostAction),
    step { s with host := .write (1 + k) v :: rest } = step { s with host := .nothing :: rest }) ∧
  (∀ k, k < 8 → hostRead State.reset (1 + k) = some 0)

/-! ### Invariants and whole runs -/

/-- The invariant holds at reset, whatever the host will do. -/
def Obligations.InvariantHoldsAtReset : Prop :=
  ∀ actions : List HostAction, Inv cfg { State.reset with host := actions }

/-- Every step keeps the invariant, from every state that meets it. -/
def Obligations.EveryStepKeepsTheInvariant : Prop :=
  ∀ s t : State, Inv cfg s → step s = .next t → Inv cfg t

/-- From a state that meets the invariant a step is a next state: no fault and no refusal (R220). -/
def Obligations.InvariantStatesNeverStop : Prop :=
  ∀ s : State, Inv cfg s → ∃ t, step s = .next t

/-- R183, which the spec marks as derived: the relations between the status elements in every state reached from
reset, whatever the host does. -/
def Obligations.ReachableStatusElementsAgree : Prop :=
  ∀ (actions : List HostAction) (n : Nat),
    ∃ s : State, Sys2Proof.core.run n { State.reset with host := actions } = .next s ∧
      (s.phase = .error ↔ s.err ≠ .none) ∧ (s.phase = .done ↔ s.dvalid = true) ∧
      ((s.phase = .idle ∨ s.phase = .gen ∨ s.phase = .run) → s.err = .none ∧ s.dvalid = false) ∧
      (s.dvalid = false → s.digest = zeroDigest)

/-- R41, which the spec marks as derived: what holds in phase `RUN` in every state reached from reset, whatever the
host does. -/
def Obligations.ReachableRunStatesMeetTheDataInvariants : Prop :=
  ∀ (actions : List HostAction) (n : Nat),
    ∃ s : State, Sys2Proof.core.run n { State.reset with host := actions } = .next s ∧
      (s.phase = .run →
        1 ≤ s.codeSize ∧ s.codeSize ≤ 65536 ∧ 1 ≤ s.tsm ∧ s.tsm ≤ 65536 ∧
        s.tlen = cfg.baseTapeSize * s.tsm ∧ 1 ≤ s.tlen ∧ s.tape.len = s.tlen ∧ s.prog.length = s.codeSize ∧
        s.pc ≤ s.codeSize ∧
        (∀ w, w ∈ s.prog → w < 2 ^ 36 ∧ (decodeStored cfg.addrWidth w).opcode < 16 ∧
          (decodeStored cfg.addrWidth w).operand < s.tlen) ∧
        s.err = .none ∧ s.dvalid = false)

/-- R198, which the spec marks as derived: a run whose validation fails ends after one step; any other ends in `DONE`
after exactly `CODE_SIZE + 3` steps, and not before. That the generation step always ends rests on the model's total
`EXPAND` (DESIGN CHOICE, log entry 13). -/
def Obligations.RunsEndAfterCodeSizePlusThreeSteps : Prop :=
  ∀ (cmd : Command) (s : State), Presents cmd s →
    (∀ k, validate cfg cmd = .error k →
      ∃ t : State, Sys2Proof.core.run 1 s = .next t ∧ t.phase = .error) ∧
    (∀ l, validate cfg cmd = .ok l →
      (∀ n, 1 ≤ n → n < l.codeSize + 3 →
        ∃ t : State, Sys2Proof.core.run n s = .next t ∧ (t.phase = .gen ∨ t.phase = .run)) ∧
      ∃ t : State, Sys2Proof.core.run (l.codeSize + 3) s = .next t ∧ t.phase = .done)

/-- R200, whose end state the spec marks as derived: for every configuration that meets its constraints, the machine
started in a quiescent phase ends its run with the value of `H`, which is written on byte sequences and knows neither
the sequencer nor the packed program nor the canonical form of the tape. The end of a run is its first state in `DONE`
or `ERROR` (R197). -/
def Obligations.ARunComputesTheHashFunction : Prop :=
  ∀ (c : Config), c.Legal → ∀ (cmd : Command) (s : State), Presents cmd s →
    ∃ (n : Nat) (t : State), 1 ≤ n ∧ RunsTo c n s t ∧ EndsAs (hashFunction c cmd) t ∧
      ∀ m, 1 ≤ m → m < n → ∃ u : State, RunsTo c m s u ∧ (u.phase = .gen ∨ u.phase = .run)

/-- The machine is the machine of its own configuration, which meets its constraints whatever its open values are
(R5, R254): what is stated for every configuration holds of it. -/
def Obligations.TheMachineIsThatOfALegalConfiguration : Prop :=
  cfg.Legal ∧ (∀ s : State, step s = stepWith cfg s) ∧
    ∀ (n : Nat) (s t : State), Sys2Proof.core.run n s = .next t ↔ RunsTo cfg n s t

/-- R42: the outcome of an invocation is a function of the configuration and the command: two runs of the same command
from any two quiescent states end after the same number of steps with the same outcome. The end of a run is its first
state in `DONE` or `ERROR` after the command (R197). -/
def Obligations.TheOutcomeDependsOnlyOnTheCommand : Prop :=
  ∀ (cmd : Command) (s s' : State), Presents cmd s → Presents cmd s' →
    ∃ (n : Nat) (t t' : State), 1 ≤ n ∧
      Sys2Proof.core.run n s = .next t ∧ Sys2Proof.core.run n s' = .next t' ∧
      (t.phase = .done ∨ t.phase = .error) ∧
      t.phase = t'.phase ∧ t.err = t'.err ∧ t.dvalid = t'.dvalid ∧ t.digest = t'.digest ∧
      ∀ m, 1 ≤ m → m < n → ∃ u u' : State,
        Sys2Proof.core.run m s = .next u ∧ (u.phase = .gen ∨ u.phase = .run) ∧
        Sys2Proof.core.run m s' = .next u' ∧ (u'.phase = .gen ∨ u'.phase = .run)

/-- R43, which the spec marks as derived: after `START` and generation nothing is left of what the block held before:
from any two quiescent states with the same host the second state after a command that passes validation is the same,
in every element. -/
def Obligations.NothingSurvivesIntoTheNextInvocation : Prop :=
  ∀ (s s' : State) (cmd : Command) (rest : List HostAction),
    (s.phase = .idle ∨ s.phase = .done ∨ s.phase = .error) →
    (s'.phase = .idle ∨ s'.phase = .done ∨ s'.phase = .error) →
    s.host = .start cmd :: rest → s'.host = .start cmd :: rest →
    ¬ TypeFault cmd → ¬ ValueFault cmd →
    ∃ t : State, Sys2Proof.core.run 2 s = .next t ∧ Sys2Proof.core.run 2 s' = .next t

/-! ### Programs as text -/

/-- R98: instructions are numbered from 0 in the order written, and line `k` assembles to `PROG[k]`: the text whose lines
write the instructions, in either base, with or without comments, assembles to exactly their words (R92), for an
operand field of every width (32 is the default). That a line ends at a line feed, and that a line of blanks and
comment is no line of the program, are the model's reading (DESIGN CHOICE, log entry 18). -/
def Obligations.ProgramsAssembleLineByLine : Prop :=
  ∀ (n : Nat) (program : List (Option Instr × List Char)), (∀ p ∈ program, WritesLine n p) →
    ∃ words : List (InstrWord n), assemble n (List.intercalate ['\n'] (program.map Prod.snd)) = .ok words ∧
      words.length = (program.filterMap Prod.fst).length ∧
      ∀ (k : Nat) (i : Instr), (program.filterMap Prod.fst)[k]? = some i →
        ∃ w, words[k]? = some w ∧ w.toNat = i.operand * 16 + i.opcode
end

