-- ==== Sys2Proof/Laws/Decode.lean ====
section
/-! SUPPORT. The fields of a word and of a decoded instruction as numbers. -/

namespace Sys2Proof

@[simp] theorem opcodeField_toNat {n : Nat} (w : InstrWord n) : (opcodeField n w).toNat = w.toNat % 16 := by
  simp [opcodeField, BitVec.extractLsb'_toNat]

theorem operandField_toNat {n : Nat} (w : InstrWord n) : (operandField n w).toNat = w.toNat / 16 := by
  have h := w.isLt
  rw [Nat.pow_add] at h
  simp only [operandField, BitVec.extractLsb'_toNat, Nat.shiftRight_eq_div_pow]
  exact Nat.mod_eq_of_lt (Nat.div_lt_of_lt_mul (by omega))

@[simp] theorem ofFields_operand (k : BitVec 4) (a : Nat) : (Instr.ofFields k a).operand = a := by
  unfold Instr.ofFields
  split <;> rfl

@[simp] theorem ofFields_opcode (k : BitVec 4) (a : Nat) : (Instr.ofFields k a).opcode = k.toNat := by
  have := k.isLt
  unfold Instr.ofFields
  split <;> simp_all [Instr.opcode]
  omega

/-- An instruction is its opcode and its operand. -/
theorem ofFields_self (i : Instr) : Instr.ofFields (BitVec.ofNat 4 i.opcode) i.operand = i := by
  cases i <;> rfl

theorem opcode_lt (i : Instr) : i.opcode < 16 := by cases i <;> simp [Instr.opcode]

theorem pairWord_toNat {n k a : Nat} (hk : k < 16) (ha : a < 2 ^ n) : (pairWord n k a).toNat = a * 16 + k := by
  simp only [pairWord, BitVec.toNat_ofNat, Nat.pow_add]
  exact Nat.mod_eq_of_lt (by omega)

/-- A word read back from its value is the word. -/
@[simp] theorem decodeStored_toNat {n : Nat} (w : InstrWord n) : decodeStored n w.toNat = decode n w := by
  simp [decodeStored]

/-- The operand and the opcode of the word of a pair. -/
theorem decode_pairWord {n k a : Nat} (hk : k < 16) (ha : a < 2 ^ n) :
    decode n (pairWord n k a) = Instr.ofFields (BitVec.ofNat 4 k) a := by
  have hw := pairWord_toNat hk ha
  have h1 : opcodeField n (pairWord n k a) = BitVec.ofNat 4 k := by
    apply BitVec.eq_of_toNat_eq
    rw [opcodeField_toNat, hw, BitVec.toNat_ofNat]
    omega
  have h2 : (operandField n (pairWord n k a)).toNat = a := by
    rw [operandField_toNat, hw]; omega
  rw [decode, h1, h2]

end Sys2Proof
end

