-- ==== Sys2Proof/Laws/State.lean ====
section
/-! SUPPORT. What each update of the state leaves in each field: one lemma per field per update, each true by
unfolding, so that no later proof unfolds a record update. -/

namespace Sys2Proof.Machine

/-! ### `emptyBuffers` -/

@[simp] theorem emptyBuffers_phase (s : State) : (emptyBuffers s).phase = s.phase := rfl
@[simp] theorem emptyBuffers_err (s : State) : (emptyBuffers s).err = s.err := rfl
@[simp] theorem emptyBuffers_dvalid (s : State) : (emptyBuffers s).dvalid = s.dvalid := rfl
@[simp] theorem emptyBuffers_variant (s : State) : (emptyBuffers s).variant = s.variant := rfl
@[simp] theorem emptyBuffers_codeSize (s : State) : (emptyBuffers s).codeSize = s.codeSize := rfl
@[simp] theorem emptyBuffers_tsm (s : State) : (emptyBuffers s).tsm = s.tsm := rfl
@[simp] theorem emptyBuffers_tlen (s : State) : (emptyBuffers s).tlen = s.tlen := rfl
@[simp] theorem emptyBuffers_pc (s : State) : (emptyBuffers s).pc = s.pc := rfl
@[simp] theorem emptyBuffers_pre (s : State) : (emptyBuffers s).pre = [] := rfl
@[simp] theorem emptyBuffers_tape (s : State) : (emptyBuffers s).tape = Memory.empty := rfl
@[simp] theorem emptyBuffers_prog (s : State) : (emptyBuffers s).prog = [] := rfl
@[simp] theorem emptyBuffers_digest (s : State) : (emptyBuffers s).digest = s.digest := rfl
@[simp] theorem emptyBuffers_host (s : State) : (emptyBuffers s).host = s.host := rfl

/-! ### `raise` -/

@[simp] theorem raise_phase (k : ErrKind) (s : State) : (raise k s).phase = .error := rfl
@[simp] theorem raise_err (k : ErrKind) (s : State) : (raise k s).err = k.cause := rfl
@[simp] theorem raise_dvalid (k : ErrKind) (s : State) : (raise k s).dvalid = false := rfl
@[simp] theorem raise_variant (k : ErrKind) (s : State) : (raise k s).variant = s.variant := rfl
@[simp] theorem raise_codeSize (k : ErrKind) (s : State) : (raise k s).codeSize = s.codeSize := rfl
@[simp] theorem raise_tsm (k : ErrKind) (s : State) : (raise k s).tsm = s.tsm := rfl
@[simp] theorem raise_tlen (k : ErrKind) (s : State) : (raise k s).tlen = s.tlen := rfl
@[simp] theorem raise_pc (k : ErrKind) (s : State) : (raise k s).pc = s.pc := rfl
@[simp] theorem raise_pre (k : ErrKind) (s : State) : (raise k s).pre = [] := rfl
@[simp] theorem raise_tape (k : ErrKind) (s : State) : (raise k s).tape = Memory.empty := rfl
@[simp] theorem raise_prog (k : ErrKind) (s : State) : (raise k s).prog = [] := rfl
@[simp] theorem raise_digest (k : ErrKind) (s : State) : (raise k s).digest = zeroDigest := rfl
@[simp] theorem raise_host (k : ErrKind) (s : State) : (raise k s).host = s.host := rfl

/-! ### `clearForStart` -/

@[simp] theorem clearForStart_phase (s : State) : (clearForStart s).phase = s.phase := rfl
@[simp] theorem clearForStart_err (s : State) : (clearForStart s).err = .none := rfl
@[simp] theorem clearForStart_dvalid (s : State) : (clearForStart s).dvalid = false := rfl
@[simp] theorem clearForStart_variant (s : State) : (clearForStart s).variant = s.variant := rfl
@[simp] theorem clearForStart_codeSize (s : State) : (clearForStart s).codeSize = s.codeSize := rfl
@[simp] theorem clearForStart_tsm (s : State) : (clearForStart s).tsm = s.tsm := rfl
@[simp] theorem clearForStart_tlen (s : State) : (clearForStart s).tlen = s.tlen := rfl
@[simp] theorem clearForStart_pc (s : State) : (clearForStart s).pc = s.pc := rfl
@[simp] theorem clearForStart_pre (s : State) : (clearForStart s).pre = [] := rfl
@[simp] theorem clearForStart_tape (s : State) : (clearForStart s).tape = Memory.empty := rfl
@[simp] theorem clearForStart_prog (s : State) : (clearForStart s).prog = [] := rfl
@[simp] theorem clearForStart_digest (s : State) : (clearForStart s).digest = zeroDigest := rfl
@[simp] theorem clearForStart_host (s : State) : (clearForStart s).host = s.host := rfl

/-! ### `resetBlock` -/

@[simp] theorem resetBlock_phase (s : State) : (resetBlock s).phase = .idle := rfl
@[simp] theorem resetBlock_err (s : State) : (resetBlock s).err = .none := rfl
@[simp] theorem resetBlock_dvalid (s : State) : (resetBlock s).dvalid = false := rfl
@[simp] theorem resetBlock_variant (s : State) : (resetBlock s).variant = .noVariant := rfl
@[simp] theorem resetBlock_codeSize (s : State) : (resetBlock s).codeSize = 0 := rfl
@[simp] theorem resetBlock_tsm (s : State) : (resetBlock s).tsm = 0 := rfl
@[simp] theorem resetBlock_tlen (s : State) : (resetBlock s).tlen = 0 := rfl
@[simp] theorem resetBlock_pc (s : State) : (resetBlock s).pc = 0 := rfl
@[simp] theorem resetBlock_pre (s : State) : (resetBlock s).pre = [] := rfl
@[simp] theorem resetBlock_tape (s : State) : (resetBlock s).tape = Memory.empty := rfl
@[simp] theorem resetBlock_prog (s : State) : (resetBlock s).prog = [] := rfl
@[simp] theorem resetBlock_digest (s : State) : (resetBlock s).digest = zeroDigest := rfl
@[simp] theorem resetBlock_host (s : State) : (resetBlock s).host = s.host := rfl

/-! ### `completeInstruction` -/

@[simp] theorem completeInstruction_phase (t : Memory) (s : State) : (completeInstruction t s).phase = s.phase := rfl
@[simp] theorem completeInstruction_err (t : Memory) (s : State) : (completeInstruction t s).err = s.err := rfl
@[simp] theorem completeInstruction_dvalid (t : Memory) (s : State) : (completeInstruction t s).dvalid = s.dvalid := rfl
@[simp] theorem completeInstruction_variant (t : Memory) (s : State) : (completeInstruction t s).variant = s.variant := rfl
@[simp] theorem completeInstruction_codeSize (t : Memory) (s : State) : (completeInstruction t s).codeSize = s.codeSize := rfl
@[simp] theorem completeInstruction_tsm (t : Memory) (s : State) : (completeInstruction t s).tsm = s.tsm := rfl
@[simp] theorem completeInstruction_tlen (t : Memory) (s : State) : (completeInstruction t s).tlen = s.tlen := rfl
@[simp] theorem completeInstruction_pc (t : Memory) (s : State) : (completeInstruction t s).pc = s.pc + 1 := rfl
@[simp] theorem completeInstruction_pre (t : Memory) (s : State) : (completeInstruction t s).pre = s.pre := rfl
@[simp] theorem completeInstruction_tape (t : Memory) (s : State) : (completeInstruction t s).tape = t := rfl
@[simp] theorem completeInstruction_prog (t : Memory) (s : State) : (completeInstruction t s).prog = s.prog := rfl
@[simp] theorem completeInstruction_digest (t : Memory) (s : State) : (completeInstruction t s).digest = s.digest := rfl
@[simp] theorem completeInstruction_host (t : Memory) (s : State) : (completeInstruction t s).host = s.host := rfl

/-! ### `latch` -/

@[simp] theorem latch_phase (l : Latch) (s : State) : (latch l s).phase = .gen := rfl
@[simp] theorem latch_err (l : Latch) (s : State) : (latch l s).err = s.err := rfl
@[simp] theorem latch_dvalid (l : Latch) (s : State) : (latch l s).dvalid = s.dvalid := rfl
@[simp] theorem latch_variant (l : Latch) (s : State) : (latch l s).variant = l.variant := rfl
@[simp] theorem latch_codeSize (l : Latch) (s : State) : (latch l s).codeSize = l.codeSize := rfl
@[simp] theorem latch_tsm (l : Latch) (s : State) : (latch l s).tsm = l.tsm := rfl
@[simp] theorem latch_tlen (l : Latch) (s : State) : (latch l s).tlen = s.tlen := rfl
@[simp] theorem latch_pc (l : Latch) (s : State) : (latch l s).pc = s.pc := rfl
@[simp] theorem latch_pre (l : Latch) (s : State) : (latch l s).pre = l.pre := rfl
@[simp] theorem latch_tape (l : Latch) (s : State) : (latch l s).tape = s.tape := rfl
@[simp] theorem latch_prog (l : Latch) (s : State) : (latch l s).prog = s.prog := rfl
@[simp] theorem latch_digest (l : Latch) (s : State) : (latch l s).digest = s.digest := rfl
@[simp] theorem latch_host (l : Latch) (s : State) : (latch l s).host = s.host := rfl

/-! ### `loadGenerated` -/

@[simp] theorem loadGenerated_phase (c : Config) (b : Bytes) (s : State) : (loadGenerated c b s).phase = .run := rfl
@[simp] theorem loadGenerated_err (c : Config) (b : Bytes) (s : State) : (loadGenerated c b s).err = s.err := rfl
@[simp] theorem loadGenerated_dvalid (c : Config) (b : Bytes) (s : State) : (loadGenerated c b s).dvalid = s.dvalid := rfl
@[simp] theorem loadGenerated_variant (c : Config) (b : Bytes) (s : State) : (loadGenerated c b s).variant = s.variant := rfl
@[simp] theorem loadGenerated_codeSize (c : Config) (b : Bytes) (s : State) : (loadGenerated c b s).codeSize = s.codeSize := rfl
@[simp] theorem loadGenerated_tsm (c : Config) (b : Bytes) (s : State) : (loadGenerated c b s).tsm = s.tsm := rfl
@[simp] theorem loadGenerated_tlen (c : Config) (b : Bytes) (s : State) : (loadGenerated c b s).tlen = tapeLength c s.tsm := rfl
@[simp] theorem loadGenerated_pc (c : Config) (b : Bytes) (s : State) : (loadGenerated c b s).pc = 0 := rfl
@[simp] theorem loadGenerated_pre (c : Config) (b : Bytes) (s : State) : (loadGenerated c b s).pre = s.pre := rfl
@[simp] theorem loadGenerated_tape (c : Config) (b : Bytes) (s : State) : (loadGenerated c b s).tape = memOfBytes (streamTape c s.tsm b) := rfl
@[simp] theorem loadGenerated_prog (c : Config) (b : Bytes) (s : State) : (loadGenerated c b s).prog = generateProgram c s.codeSize s.tsm b := rfl
@[simp] theorem loadGenerated_digest (c : Config) (b : Bytes) (s : State) : (loadGenerated c b s).digest = s.digest := rfl
@[simp] theorem loadGenerated_host (c : Config) (b : Bytes) (s : State) : (loadGenerated c b s).host = s.host := rfl

/-! ### `finalizationStep` -/

@[simp] theorem finalizationStep_phase (c : Config) (s : State) : (finalizationStep c s).phase = .done := rfl
@[simp] theorem finalizationStep_err (c : Config) (s : State) : (finalizationStep c s).err = s.err := rfl
@[simp] theorem finalizationStep_dvalid (c : Config) (s : State) : (finalizationStep c s).dvalid = true := rfl
@[simp] theorem finalizationStep_variant (c : Config) (s : State) : (finalizationStep c s).variant = s.variant := rfl
@[simp] theorem finalizationStep_codeSize (c : Config) (s : State) : (finalizationStep c s).codeSize = s.codeSize := rfl
@[simp] theorem finalizationStep_tsm (c : Config) (s : State) : (finalizationStep c s).tsm = s.tsm := rfl
@[simp] theorem finalizationStep_tlen (c : Config) (s : State) : (finalizationStep c s).tlen = s.tlen := rfl
@[simp] theorem finalizationStep_pc (c : Config) (s : State) : (finalizationStep c s).pc = s.pc := rfl
@[simp] theorem finalizationStep_pre (c : Config) (s : State) : (finalizationStep c s).pre = [] := rfl
@[simp] theorem finalizationStep_tape (c : Config) (s : State) : (finalizationStep c s).tape = Memory.empty := rfl
@[simp] theorem finalizationStep_prog (c : Config) (s : State) : (finalizationStep c s).prog = [] := rfl
@[simp] theorem finalizationStep_digest (c : Config) (s : State) : (finalizationStep c s).digest = c.finalize (memBytes s.tape) := rfl
@[simp] theorem finalizationStep_host (c : Config) (s : State) : (finalizationStep c s).host = s.host := rfl

/-! ### `hostTaken` -/

@[simp] theorem hostTaken_phase (s : State) : (hostTaken s).phase = s.phase := rfl
@[simp] theorem hostTaken_err (s : State) : (hostTaken s).err = s.err := rfl
@[simp] theorem hostTaken_dvalid (s : State) : (hostTaken s).dvalid = s.dvalid := rfl
@[simp] theorem hostTaken_variant (s : State) : (hostTaken s).variant = s.variant := rfl
@[simp] theorem hostTaken_codeSize (s : State) : (hostTaken s).codeSize = s.codeSize := rfl
@[simp] theorem hostTaken_tsm (s : State) : (hostTaken s).tsm = s.tsm := rfl
@[simp] theorem hostTaken_tlen (s : State) : (hostTaken s).tlen = s.tlen := rfl
@[simp] theorem hostTaken_pc (s : State) : (hostTaken s).pc = s.pc := rfl
@[simp] theorem hostTaken_pre (s : State) : (hostTaken s).pre = s.pre := rfl
@[simp] theorem hostTaken_tape (s : State) : (hostTaken s).tape = s.tape := rfl
@[simp] theorem hostTaken_prog (s : State) : (hostTaken s).prog = s.prog := rfl
@[simp] theorem hostTaken_digest (s : State) : (hostTaken s).digest = s.digest := rfl
@[simp] theorem hostTaken_host (s : State) : (hostTaken s).host = s.host.tail := rfl

/-! ### `loadForHarness` -/

@[simp] theorem loadForHarness_phase (s : State) (w : Nat) : (loadForHarness s w).phase = .run := rfl
@[simp] theorem loadForHarness_err (s : State) (w : Nat) : (loadForHarness s w).err = .none := rfl
@[simp] theorem loadForHarness_dvalid (s : State) (w : Nat) : (loadForHarness s w).dvalid = false := rfl
@[simp] theorem loadForHarness_variant (s : State) (w : Nat) : (loadForHarness s w).variant = s.variant := rfl
@[simp] theorem loadForHarness_codeSize (s : State) (w : Nat) : (loadForHarness s w).codeSize = max s.codeSize (s.pc + 1) := rfl
@[simp] theorem loadForHarness_tsm (s : State) (w : Nat) : (loadForHarness s w).tsm = s.tsm := rfl
@[simp] theorem loadForHarness_tlen (s : State) (w : Nat) : (loadForHarness s w).tlen = (harnessTape s.tape).len := rfl
@[simp] theorem loadForHarness_pc (s : State) (w : Nat) : (loadForHarness s w).pc = s.pc := rfl
@[simp] theorem loadForHarness_pre (s : State) (w : Nat) : (loadForHarness s w).pre = s.pre := rfl
@[simp] theorem loadForHarness_tape (s : State) (w : Nat) : (loadForHarness s w).tape = harnessTape s.tape := rfl
@[simp] theorem loadForHarness_prog (s : State) (w : Nat) : (loadForHarness s w).prog = placeWord s.prog s.pc w := rfl
@[simp] theorem loadForHarness_digest (s : State) (w : Nat) : (loadForHarness s w).digest = zeroDigest := rfl
@[simp] theorem loadForHarness_host (s : State) (w : Nat) : (loadForHarness s w).host = [] := rfl

/-! ### `State.reset` -/

@[simp] theorem reset_phase : State.reset.phase = .idle := rfl
@[simp] theorem reset_err : State.reset.err = .none := rfl
@[simp] theorem reset_dvalid : State.reset.dvalid = false := rfl
@[simp] theorem reset_variant : State.reset.variant = .noVariant := rfl
@[simp] theorem reset_codeSize : State.reset.codeSize = 0 := rfl
@[simp] theorem reset_tsm : State.reset.tsm = 0 := rfl
@[simp] theorem reset_tlen : State.reset.tlen = 0 := rfl
@[simp] theorem reset_pc : State.reset.pc = 0 := rfl
@[simp] theorem reset_pre : State.reset.pre = [] := rfl
@[simp] theorem reset_tape : State.reset.tape = Memory.empty := rfl
@[simp] theorem reset_prog : State.reset.prog = [] := rfl
@[simp] theorem reset_digest : State.reset.digest = zeroDigest := rfl
@[simp] theorem reset_host : State.reset.host = [] := rfl

/-! ### Memory -/

@[simp] theorem Memory.empty_len : Memory.empty.len = 0 := rfl
@[simp] theorem Memory.empty_cells : Memory.empty.cells = [] := rfl
@[simp] theorem memRotl_len (m : Memory) (n : Nat) : (memRotl m n).len = m.len := rfl
@[simp] theorem memOfBytes_len (b : Bytes) : (memOfBytes b).len = b.length := rfl

end Sys2Proof.Machine
end

