-- ==== Sys2Proof/Laws/Memory.lean ====
section
/-! SUPPORT. The laws of the byte store: read after write, rotation as movement of bytes, the canonical form kept by
every operation, and the store against the byte sequence it stands for. -/

namespace Sys2Proof.Machine

/-! ### One cell -/

theorem cellAt_eraseCell (cs : List Host.Cell) (a j : Nat) :
    cellAt (eraseCell cs a) j = if j = a then unlistedByte else cellAt cs j := by
  induction cs with
  | nil => simp [eraseCell, cellAt]
  | cons c cs ih =>
    obtain ⟨b, v⟩ := c
    simp only [eraseCell] at ih ⊢
    by_cases hb : b = a
    · subst hb
      rw [List.filter_cons_of_neg (by simp), ih]
      by_cases hj : j = b
      · simp [hj]
      · simp [hj, cellAt, Ne.symm hj]
    · rw [List.filter_cons_of_pos (by simpa using hb)]
      by_cases hj : b = j
      · subst hj; simp [cellAt, hb]
      · simpa [cellAt, hj] using ih

theorem cellAt_insertCell (a : Nat) (v : Byte) (cs : List Host.Cell) (j : Nat)
    (absent : ∀ c ∈ cs, c.1 ≠ a) :
    cellAt (insertCell a v cs) j = if j = a then v else cellAt cs j := by
  induction cs with
  | nil =>
    by_cases hj : a = j
    · simp [insertCell, cellAt, hj]
    · simp [insertCell, cellAt, hj, Ne.symm hj]
  | cons c cs ih =>
    obtain ⟨b, w⟩ := c
    have hb : b ≠ a := absent (b, w) (by simp)
    have ih := ih (fun c hc => absent c (by simp [hc]))
    unfold insertCell
    split
    · by_cases hj : a = j
      · simp [cellAt, hj]
      · simp [cellAt, hj, Ne.symm hj]
    · by_cases hj : b = j
      · subst hj; simp [cellAt, hb]
      · simp [cellAt, hj, ih]

theorem mem_eraseCell {cs : List Host.Cell} {a : Nat} {c : Host.Cell} :
    c ∈ eraseCell cs a ↔ c ∈ cs ∧ c.1 ≠ a := by
  simp [eraseCell]

theorem mem_insertCell {a : Nat} {v : Byte} {cs : List Host.Cell} {c : Host.Cell} :
    c ∈ insertCell a v cs ↔ c = (a, v) ∨ c ∈ cs := by
  induction cs with
  | nil => simp [insertCell]
  | cons d cs ih =>
    obtain ⟨b, w⟩ := d
    unfold insertCell
    split
    · simp
    · simp only [List.mem_cons, ih]; tauto

/-! ### One byte -/

theorem memRead_of_lt {m : Memory} {a : Nat} (h : a < m.len) : memRead m a = some (cellAt m.cells a) := if_pos h

theorem memRead_of_ge {m : Memory} {a : Nat} (h : m.len ≤ a) : memRead m a = none := if_neg (by omega)

@[simp] theorem memWrite_len (m : Memory) (a : Nat) (v : Byte) : (memWrite m a v).len = m.len := by
  unfold memWrite; split <;> rfl

/-- Read after write (R66): the address written to gives the value, every other address is unchanged. -/
theorem memRead_memWrite (m : Memory) (a : Nat) (v : Byte) (j : Nat) :
    memRead (memWrite m a v) j = if j = a ∧ a < m.len then some v else memRead m j := by
  by_cases ha : a < m.len
  · unfold memRead
    rw [memWrite_len]
    by_cases hj : j < m.len
    · simp only [hj, if_true, memWrite, ha, and_true]
      by_cases hv : v = unlistedByte
      · simp only [hv, if_true, cellAt_eraseCell]; split <;> simp_all
      · simp only [hv, if_false]
        rw [cellAt_insertCell _ _ _ _ (fun c hc => (mem_eraseCell.1 hc).2), cellAt_eraseCell]
        split <;> simp_all
    · have hne : j ≠ a := by omega
      simp [hj, hne]
  · have : memWrite m a v = m := if_neg ha
    simp [this, ha]

/-! ### Rotation -/

theorem cellAt_append_of_absent {cs : List Host.Cell} {a : Nat} (h : ∀ c ∈ cs, c.1 ≠ a) (ds : List Host.Cell) :
    cellAt (cs ++ ds) a = cellAt ds a := by
  induction cs with
  | nil => rfl
  | cons c cs ih =>
    obtain ⟨b, v⟩ := c
    have hb : b ≠ a := h (b, v) (by simp)
    simp only [List.cons_append, cellAt, hb, if_false]
    exact ih (fun c hc => h c (by simp [hc]))

theorem cellAt_of_absent {cs : List Host.Cell} {a : Nat} (h : ∀ c ∈ cs, c.1 ≠ a) : cellAt cs a = unlistedByte := by
  have := cellAt_append_of_absent h []
  simpa [cellAt] using this

theorem cellAt_append_of_absent_right {ds : List Host.Cell} {a : Nat} (h : ∀ c ∈ ds, c.1 ≠ a) (cs : List Host.Cell) :
    cellAt (cs ++ ds) a = cellAt cs a := by
  induction cs with
  | nil => simpa [cellAt] using cellAt_of_absent h
  | cons c cs ih =>
    obtain ⟨b, v⟩ := c
    simp only [List.cons_append, cellAt, ih]

/-- Cells selected by address and moved by an injective map give the moved address the old byte. -/
theorem cellAt_moved (cs : List Host.Cell) (p : Nat → Bool) (g : Nat → Nat) (a : Nat) (ha : p a = true)
    (inj : ∀ b, p b = true → g b = g a → b = a) :
    cellAt ((cs.filter (fun c => p c.1)).map (fun c => (g c.1, c.2))) (g a) = cellAt cs a := by
  induction cs with
  | nil => rfl
  | cons c cs ih =>
    obtain ⟨b, v⟩ := c
    by_cases hp : p b = true
    · rw [List.filter_cons_of_pos (by simpa using hp)]
      by_cases hb : b = a
      · subst hb; simp [cellAt]
      · have : g b ≠ g a := fun h => hb (inj b hp h)
        simp only [List.map_cons, cellAt, this, hb, if_false]
        exact ih
    · rw [List.filter_cons_of_neg (by simpa using hp)]
      have hb : b ≠ a := fun h => hp (h ▸ ha)
      simp only [cellAt, hb, if_false]
      exact ih

/-- Rotation moves every byte left (R141): after it, index `j` holds what `(j + n) mod len` held. -/
theorem memRead_memRotl (m : Memory) {n j : Nat} (hn : n < m.len) (hj : j < m.len) :
    memRead (memRotl m n) j = memRead m ((j + n) % m.len) := by
  have hmod : (j + n) % m.len < m.len := Nat.mod_lt _ (by omega)
  rw [memRead_of_lt (by simpa using hj), memRead_of_lt hmod]
  congr 1
  simp only [memRotl]
  by_cases hlo : j + n < m.len
  · rw [Nat.mod_eq_of_lt hlo, cellAt_append_of_absent_right]
    · have := cellAt_moved m.cells (fun b => decide (n ≤ b ∧ b < m.len)) (fun b => b - n) (j + n)
        (by simp [hlo]) (by intro b hb h; simp at hb h; omega)
      simpa using this
    · intro c hc
      simp only [List.mem_map, List.mem_filter, decide_eq_true_eq] at hc
      obtain ⟨d, hd, rfl⟩ := hc
      simp only; omega
  · have hwrap : (j + n) % m.len = j + n - m.len := by
      rw [Nat.mod_eq_sub_mod (by omega), Nat.mod_eq_of_lt (by omega)]
    rw [hwrap, cellAt_append_of_absent]
    · have := cellAt_moved m.cells (fun b => decide (b < n)) (fun b => b + m.len - n) (j + n - m.len)
        (by simp; omega) (by intro b hb h; simp at hb h; omega)
      have hg : j + n - m.len + m.len - n = j := by omega
      simp only [hg] at this
      exact this
    · intro c hc
      simp only [List.mem_map, List.mem_filter, decide_eq_true_eq] at hc
      obtain ⟨d, hd, rfl⟩ := hc
      simp only; omega

/-! ### The canonical form -/

theorem empty_wf : Memory.empty.wf := ⟨List.Pairwise.nil, by simp⟩

theorem pairwise_insertCell {a : Nat} {v : Byte} {cs : List Host.Cell}
    (h : cs.Pairwise (fun x y => x.1 < y.1)) (absent : ∀ c ∈ cs, c.1 ≠ a) :
    (insertCell a v cs).Pairwise (fun x y => x.1 < y.1) := by
  induction cs with
  | nil => simp [insertCell]
  | cons c cs ih =>
    obtain ⟨b, w⟩ := c
    obtain ⟨hb, hcs⟩ := List.pairwise_cons.1 h
    have hba : b ≠ a := absent (b, w) (by simp)
    unfold insertCell
    split
    case isTrue hlt =>
      refine List.pairwise_cons.2 ⟨fun c hc => ?_, h⟩
      rcases List.mem_cons.1 hc with rfl | hc
      · exact hlt
      · exact Nat.lt_trans hlt (hb c hc)
    case isFalse hlt =>
      refine List.pairwise_cons.2 ⟨fun c hc => ?_, ih hcs (fun c hc => absent c (by simp [hc]))⟩
      rcases mem_insertCell.1 hc with rfl | hc
      · simp only; omega
      · exact hb c hc

theorem memWrite_wf {m : Memory} (h : m.wf) (a : Nat) (v : Byte) : (memWrite m a v).wf := by
  by_cases ha : a < m.len
  · have hpair := h.1.filter (fun c => decide (c.1 ≠ a))
    have hmem : ∀ c ∈ eraseCell m.cells a, c.1 < m.len ∧ c.2 ≠ unlistedByte :=
      fun c hc => h.2 c (mem_eraseCell.1 hc).1
    unfold memWrite
    simp only [ha, if_true]
    by_cases hv : v = unlistedByte
    · simp only [hv, if_true]; exact ⟨hpair, hmem⟩
    · simp only [hv, if_false]
      refine ⟨pairwise_insertCell hpair (fun c hc => (mem_eraseCell.1 hc).2), fun c hc => ?_⟩
      rcases mem_insertCell.1 hc with rfl | hc
      · exact ⟨ha, hv⟩
      · exact hmem c hc
  · have : memWrite m a v = m := if_neg ha
    rwa [this]

theorem memRotl_wf {m : Memory} (h : m.wf) {n : Nat} (hn : n < m.len) : (memRotl m n).wf := by
  constructor
  · simp only [memRotl]
    refine List.pairwise_append.2 ⟨?_, ?_, ?_⟩
    · refine List.pairwise_map.2 (List.Pairwise.imp_of_mem ?_ (h.1.filter _))
      intro x y hx hy hxy
      simp at hx hy ⊢; omega
    · refine List.pairwise_map.2 (List.Pairwise.imp_of_mem ?_ (h.1.filter _))
      intro x y hx hy hxy
      simp at hx hy ⊢; omega
    · intro x hx y hy
      simp only [List.mem_map, List.mem_filter, decide_eq_true_eq] at hx hy
      obtain ⟨x', hx', rfl⟩ := hx
      obtain ⟨y', hy', rfl⟩ := hy
      simp only; omega
  · intro c hc
    simp only [memRotl, List.mem_append, List.mem_map, List.mem_filter, decide_eq_true_eq] at hc
    rcases hc with ⟨d, ⟨hd, hb⟩, rfl⟩ | ⟨d, ⟨hd, hb⟩, rfl⟩
    · exact ⟨by simp; omega, (h.2 d hd).2⟩
    · exact ⟨by simp; omega, (h.2 d hd).2⟩

theorem mem_cellsFrom {i : Nat} {b : Bytes} {c : Host.Cell} (h : c ∈ cellsFrom i b) :
    i ≤ c.1 ∧ c.1 < i + b.length ∧ c.2 ≠ unlistedByte := by
  induction b generalizing i with
  | nil => simp [cellsFrom] at h
  | cons v vs ih =>
    unfold cellsFrom at h
    split at h
    · have := ih h
      simp only [List.length_cons]
      exact ⟨by omega, by omega, this.2.2⟩
    · rcases List.mem_cons.1 h with rfl | h
      · simp_all
      · have := ih h
        refine ⟨by omega, by simp only [List.length_cons]; omega, this.2.2⟩

theorem memOfBytes_wf (b : Bytes) : (memOfBytes b).wf := by
  constructor
  · have gen : ∀ (b : Bytes) (i : Nat), (cellsFrom i b).Pairwise (fun x y => x.1 < y.1) := by
      intro b
      induction b with
      | nil => intro i; exact List.Pairwise.nil
      | cons v vs ih =>
        intro i
        unfold cellsFrom
        split
        · exact ih _
        · refine List.pairwise_cons.2 ⟨fun c hc => ?_, ih _⟩
          have := (mem_cellsFrom hc).1
          simp only; omega
    exact gen b 0
  · intro c hc
    have := mem_cellsFrom hc
    exact ⟨by simpa using this.2.1, this.2.2⟩

/-! ### The store and the byte sequence it stands for -/

theorem cellAt_cellsFrom (b : Bytes) (i j : Nat) :
    cellAt (cellsFrom i b) (i + j) = b.getD j unlistedByte := by
  induction b generalizing i j with
  | nil => simp [cellsFrom, cellAt]
  | cons v vs ih =>
    cases j with
    | zero =>
      unfold cellsFrom
      split
      case isTrue hv =>
        rw [cellAt_of_absent (fun c hc => by have := (mem_cellsFrom hc).1; omega)]; simp [hv]
      case isFalse hv => simp [cellAt]
    | succ j =>
      have step := ih (i + 1) j
      have hadd : i + 1 + j = i + (j + 1) := by omega
      rw [hadd] at step
      unfold cellsFrom
      split
      · simpa using step
      · have hne : i ≠ i + (j + 1) := by omega
        simpa [cellAt, hne] using step

theorem memRead_memOfBytes (b : Bytes) (j : Nat) : memRead (memOfBytes b) j = b[j]? := by
  unfold memRead
  simp only [memOfBytes_len]
  by_cases h : j < b.length
  · have := cellAt_cellsFrom b 0 j
    simp only [Nat.zero_add] at this
    simp [memOfBytes, this, h]
  · simp [h]

@[simp] theorem memBytes_length (m : Memory) : (memBytes m).length = m.len := by simp [memBytes]

theorem memBytes_getElem? (m : Memory) (j : Nat) : (memBytes m)[j]? = memRead m j := by
  unfold memBytes memRead
  by_cases h : j < m.len
  · simp [h]
  · simp [h]

/-- Two stores that read alike stand for the same byte sequence. -/
theorem memBytes_ext {m m' : Memory} (h : ∀ j, memRead m j = memRead m' j) : memBytes m = memBytes m' := by
  apply List.ext_getElem?
  intro j
  rw [memBytes_getElem?, memBytes_getElem?, h]

theorem memBytes_memOfBytes (b : Bytes) : memBytes (memOfBytes b) = b := by
  apply List.ext_getElem?
  intro j
  rw [memBytes_getElem?, memRead_memOfBytes]

theorem memBytes_memWrite (m : Memory) (a : Nat) (v : Byte) : memBytes (memWrite m a v) = (memBytes m).set a v := by
  apply List.ext_getElem?
  intro j
  rw [memBytes_getElem?, memRead_memWrite, List.getElem?_set, memBytes_length, memBytes_getElem?]
  by_cases ha : a < m.len
  · by_cases hj : j = a
    · subst hj; simp [ha]
    · simp [ha, hj, Ne.symm hj]
  · by_cases hj : j = a
    · subst hj; simp [ha, memRead]
    · simp [ha, hj, Ne.symm hj]

theorem memBytes_memRotl (m : Memory) {n : Nat} (hn : n < m.len) :
    memBytes (memRotl m n) = (memBytes m).drop n ++ (memBytes m).take n := by
  apply List.ext_getElem?
  intro j
  rw [memBytes_getElem?]
  by_cases hj : j < m.len
  · rw [memRead_memRotl m hn hj, List.getElem?_append, List.length_drop, memBytes_length]
    by_cases hlo : j < m.len - n
    · rw [if_pos hlo, List.getElem?_drop, memBytes_getElem?, Nat.mod_eq_of_lt (by omega), Nat.add_comm]
    · rw [if_neg hlo, List.getElem?_take, if_pos (by omega), memBytes_getElem?,
        Nat.mod_eq_sub_mod (by omega), Nat.mod_eq_of_lt (by omega)]
      congr 1; omega
  · rw [memRead_of_ge (by simpa using Nat.le_of_not_lt hj), List.getElem?_eq_none]
    simp; omega

/-! ### Canonical stores are equal when they read alike -/

theorem cells_ext {cs ds : List Host.Cell}
    (hc : cs.Pairwise (fun x y => x.1 < y.1)) (hcv : ∀ c ∈ cs, c.2 ≠ unlistedByte)
    (hd : ds.Pairwise (fun x y => x.1 < y.1)) (hdv : ∀ c ∈ ds, c.2 ≠ unlistedByte)
    (h : ∀ a, cellAt cs a = cellAt ds a) : cs = ds := by
  induction cs generalizing ds with
  | nil =>
    cases ds with
    | nil => rfl
    | cons d ds =>
      have := h d.1
      simp [cellAt] at this
      exact absurd this.symm (hdv d (by simp))
  | cons c cs ih =>
    obtain ⟨a, v⟩ := c
    obtain ⟨hca, hcs⟩ := List.pairwise_cons.1 hc
    have hav : v ≠ unlistedByte := hcv (a, v) (by simp)
    cases ds with
    | nil =>
      have := h a
      simp [cellAt] at this
      exact absurd this hav
    | cons d ds =>
      obtain ⟨b, w⟩ := d
      obtain ⟨hdb, hds⟩ := List.pairwise_cons.1 hd
      have hbw : w ≠ unlistedByte := hdv (b, w) (by simp)
      have hab : a = b := by
        rcases Nat.lt_trichotomy a b with hlt | heq | hgt
        · exfalso
          have := h a
          rw [cellAt_of_absent (cs := (b, w) :: ds) (a := a)] at this
          · simp [cellAt] at this; exact hav this
          · intro c hc
            rcases List.mem_cons.1 hc with rfl | hc
            · simp only; omega
            · have := hdb c hc; simp only at this; omega
        · exact heq
        · exfalso
          have := h b
          rw [cellAt_of_absent (cs := (a, v) :: cs) (a := b)] at this
          · simp [cellAt] at this; exact hbw this.symm
          · intro c hc
            rcases List.mem_cons.1 hc with rfl | hc
            · simp only; omega
            · have := hca c hc; simp only at this; omega
      subst hab
      have hvw : v = w := by simpa [cellAt] using h a
      subst hvw
      congr 1
      refine ih hcs (fun c hc => hcv c (by simp [hc])) hds (fun c hc => hdv c (by simp [hc])) (fun j => ?_)
      by_cases hj : a = j
      · subst hj
        rw [cellAt_of_absent (fun c hc => by have := hca c hc; simp only at this; omega),
          cellAt_of_absent (fun c hc => by have := hdb c hc; simp only at this; omega)]
      · simpa [cellAt, hj] using h j

/-- Equal memories are equal data: two canonical stores of one length that read alike are the same store. -/
theorem memory_ext {m m' : Memory} (hm : m.wf) (hm' : m'.wf) (hlen : m.len = m'.len)
    (h : ∀ a, memRead m a = memRead m' a) : m = m' := by
  obtain ⟨n, cs⟩ := m
  obtain ⟨n', ds⟩ := m'
  simp only at hlen
  subst hlen
  congr 1
  refine cells_ext hm.1 (fun c hc => (hm.2 c hc).2) hm'.1 (fun c hc => (hm'.2 c hc).2) (fun a => ?_)
  by_cases ha : a < n
  · simpa [memRead, ha] using h a
  · rw [cellAt_of_absent (fun c hc => by have := (hm.2 c hc).1; simp only at this; omega),
      cellAt_of_absent (fun c hc => by have := (hm'.2 c hc).1; simp only at this; omega)]

end Sys2Proof.Machine
end

