-- ==== Sys2Proof/Laws/Ops.lean ====
section
/-! SUPPORT. What the units of an instruction step and the step itself can do: one lemma for each way each ends. -/

namespace Sys2Proof.Machine

/-! ### The execution unit -/

/-- In bounds, one byte is read and one written, both at `a` (R112). -/
theorem applyTransform_inBounds (f : Byte → Byte) {a : Nat} {m : Memory} (h : a < m.len) :
    applyTransform f a m = .ok (memWrite m a (f (cellAt m.cells a))) := by
  have hne : m.len ≠ 0 := by omega
  simp [applyTransform, hne, IndexInBounds, h, memRead_of_lt]

/-- Out of bounds, nothing is accessed (R66, R111). -/
theorem applyTransform_outOfBounds (f : Byte → Byte) {a : Int} {m : Memory} (h : ¬ IndexInBounds a m.len) :
    applyTransform f a m = .error .valueError := by
  simp only [applyTransform, h, if_false, ite_self]

/-! ### The rotator -/

theorem rotateTape_inBounds {m : Memory} {n : Nat} (h : n < m.len) : rotateTape m n = .ok (memRotl m n) := by
  have hne : m.len ≠ 0 := by omega
  simp [rotateTape, hne, IndexInBounds, h]

theorem rotateTape_outOfBounds {m : Memory} {n : Int} (h : ¬ IndexInBounds n m.len) :
    rotateTape m n = .error .valueError := by
  simp only [rotateTape, h, if_false, ite_self]

theorem indexInBounds_nat {a : Int} {len : Nat} (h : IndexInBounds a len) : ∃ n : Nat, a = n ∧ n < len :=
  ⟨a.toNat, by have := h.1; omega, by have := h.1; have := h.2; omega⟩

/-! ### The instruction step -/

/-- The tape after one instruction whose operand and rotation amount are in bounds (R193, R194). -/
def steppedTape (f : Byte → Byte) (a n : Nat) (m : Memory) : Memory :=
  memRotl (memWrite m a (f (cellAt m.cells a))) n

/-- An operand outside the tape: the error sequence, and nothing else changed (R193, R224). -/
theorem instructionStep_operandOutOfBounds (c : Config) (k : Nat) (f : Byte → Byte) {a : Nat} {s : State}
    (h : s.tape.len ≤ a) : instructionStep c k f a s = .next (raise .valueError s) := by
  have hb : ¬ IndexInBounds (a : Int) s.tape.len := fun hb => by have := hb.2; omega
  simp [instructionStep, applyTransform_outOfBounds f hb]

/-- A scheduled amount outside the tape: the error sequence, and nothing else changed (R194, R224). -/
theorem instructionStep_amountOutOfBounds (c : Config) (k : Nat) (f : Byte → Byte) {a : Nat} {s : State}
    (h : ¬ IndexInBounds (c.rotSchedule s.pc k a s.tlen) s.tape.len) :
    instructionStep c k f a s = .next (raise .valueError s) := by
  by_cases ha : a < s.tape.len
  · have hr : ¬ IndexInBounds (c.rotSchedule s.pc k a s.tlen)
        (memWrite s.tape a (f (cellAt s.tape.cells a))).len := by simpa only [memWrite_len] using h
    simp [instructionStep, applyTransform_inBounds f ha, rotateTape_outOfBounds hr]
  · exact instructionStep_operandOutOfBounds c k f (by omega)

/-- Operand and amount in bounds: transform, rotation, advance (R193, R194, R196). -/
theorem instructionStep_completes (c : Config) (k : Nat) (f : Byte → Byte) {a n : Nat} {s : State}
    (ha : a < s.tape.len) (hn : n < s.tape.len) (hrot : c.rotSchedule s.pc k a s.tlen = n) :
    instructionStep c k f a s = .next (completeInstruction (steppedTape f a n s.tape) s) := by
  have hn' : n < (memWrite s.tape a (f (cellAt s.tape.cells a))).len := by simpa using hn
  simp [instructionStep, applyTransform_inBounds f ha, hrot, rotateTape_inBounds hn', steppedTape]

/-- Everything an instruction step can do. -/
theorem instructionStep_cases (c : Config) (k : Nat) (f : Byte → Byte) (a : Nat) (s : State) :
    (∃ n : Nat, a < s.tape.len ∧ n < s.tape.len ∧ c.rotSchedule s.pc k a s.tlen = n ∧
      instructionStep c k f a s = .next (completeInstruction (steppedTape f a n s.tape) s)) ∨
    ((s.tape.len ≤ a ∨ ¬ IndexInBounds (c.rotSchedule s.pc k a s.tlen) s.tape.len) ∧
      instructionStep c k f a s = .next (raise .valueError s)) := by
  by_cases ha : a < s.tape.len
  · by_cases hr : IndexInBounds (c.rotSchedule s.pc k a s.tlen) s.tape.len
    · obtain ⟨n, hrot, hn⟩ := indexInBounds_nat hr
      exact .inl ⟨n, ha, hn, hrot, instructionStep_completes c k f ha hn hrot⟩
    · exact .inr ⟨.inr hr, instructionStep_amountOutOfBounds c k f hr⟩
  · exact .inr ⟨.inl (by omega), instructionStep_operandOutOfBounds c k f (by omega)⟩

@[simp] theorem steppedTape_len (f : Byte → Byte) (a n : Nat) (m : Memory) : (steppedTape f a n m).len = m.len := by
  simp [steppedTape]

theorem steppedTape_wf {m : Memory} (h : m.wf) (f : Byte → Byte) (a : Nat) {n : Nat} (hn : n < m.len) :
    (steppedTape f a n m).wf :=
  memRotl_wf (memWrite_wf h _ _) (by simpa using hn)

/-- The stepped tape read at one address: the old byte that rotation brings there, transformed where that is the
operand's (R112, R141). -/
theorem memRead_steppedTape (f : Byte → Byte) {a n : Nat} {m : Memory} (ha : a < m.len) (hn : n < m.len)
    {j : Nat} (hj : j < m.len) :
    memRead (steppedTape f a n m) j =
      if (j + n) % m.len = a then (memRead m a).map f else memRead m ((j + n) % m.len) := by
  unfold steppedTape
  rw [memRead_memRotl _ (by simpa using hn) (by simpa using hj), memWrite_len, memRead_memWrite]
  simp only [ha, and_true, memRead_of_lt ha, Option.map_some]

/-- The stepped tape as a byte sequence (R200). -/
theorem memBytes_steppedTape (f : Byte → Byte) {a n : Nat} {m : Memory} (ha : a < m.len) (hn : n < m.len) :
    memBytes (steppedTape f a n m) =
      ((memBytes m).modify a f).drop n ++ ((memBytes m).modify a f).take n := by
  have hset : memBytes (memWrite m a (f (cellAt m.cells a))) = (memBytes m).modify a f := by
    rw [memBytes_memWrite]
    apply List.ext_getElem?
    intro j
    rw [List.getElem?_set, List.getElem?_modify, memBytes_length, memBytes_getElem?]
    by_cases hj : a = j
    · subst hj; simp [ha, memRead_of_lt ha]
    · simp [hj]
  rw [steppedTape, memBytes_memRotl _ (by simpa using hn), hset]

/-! ### The meanings -/

/-- Every meaning is the shared step with the opcode and transform of its table entry (R113). -/
theorem exec_eq_execWith (i : Instr) (s : State) :
    exec i s = execWith cfg i s := by cases i <;> rfl

end Sys2Proof.Machine
end

