-- ==== Sys2Proof/Laws/Config.lean ====
section
/-! SUPPORT. The machine's configuration meets its constraints (R7, R254) whatever its open values are. -/

namespace Sys2Proof.Machine

theorem cfg_rotSchedule (i k a len : Nat) : cfg.rotSchedule i k a len = a := rfl

theorem cfg_operandSeedBytes : cfg.operandSeedBytes = 4 := rfl

theorem cfg_addrWidth : cfg.addrWidth = 32 := rfl

theorem groupSize_cfg : groupSize cfg = 5 := rfl

theorem cfg_keyser : cfg.keyser = defaultKeyser := rfl

theorem cfg_finalize (t : Bytes) : cfg.finalize t = cfg.expand t 32 := rfl

theorem paramInRange_of_fin (x : Fin 65536) : ParamInRange (x.val + 1) := by
  have := x.isLt
  simp only [ParamInRange, paramMin, paramMax]
  omega

theorem cfg_legal : cfg.Legal where
  baseInRange := paramInRange_of_fin _
  csInRange := fun v _ => paramInRange_of_fin (Config.openCsLessOne v)
  tsmInRange := fun v _ => by
    cases v with
    | tapehash1 => simp [cfg, ParamInRange, paramMin, paramMax]
    | noVariant => exact paramInRange_of_fin (Config.openTsmLessOne .noVariant)
    | tapehash2 => exact paramInRange_of_fin (Config.openTsmLessOne .tapehash2)
    | tapehash3 => exact paramInRange_of_fin (Config.openTsmLessOne .tapehash3)
  tsmOfTapehash1 := rfl
  seedBytes := by simp [cfg]
  wordHoldsEveryIndex := by
    have h := (paramInRange_of_fin Config.openBaseLessOne).2
    exact Nat.le_trans (Nat.mul_le_mul_right paramMax h) (by decide)
  rotInRange := fun i k a len h => by rw [cfg_rotSchedule]; omega
  intWide := by simp [cfg]

end Sys2Proof.Machine
end

