-- ==== Sys2Proof/Laws/Seed.lean ====
section
/-! SUPPORT. The seed stream, its layout, and the two generators. -/

namespace Sys2Proof.Machine

theorem u32be_length (x : Nat) : (u32be x).length = 4 := rfl

theorem be_append_singleton (b : Bytes) (v : Byte) : be (b ++ [v]) = be b * 256 + v.toNat := by
  simp [be, List.foldl_append]

/-- The stream has the requested length (R153). -/
@[simp] theorem seedStream_length (c : Config) (v : Variant) (pre : Bytes) (cs tsm : Nat) :
    (seedStream c v pre cs tsm).length = tapeLength c tsm + cs * groupSize c := by
  simp [seedStream]

@[simp] theorem streamTape_length (c : Config) (tsm : Nat) {stream : Bytes}
    (h : tapeLength c tsm ≤ stream.length) : (streamTape c tsm stream).length = tapeLength c tsm := by
  simp [streamTape, h]

@[simp] theorem generateProgram_length (c : Config) (cs tsm : Nat) (stream : Bytes) :
    (generateProgram c cs tsm stream).length = cs := by
  simp [generateProgram]

theorem generateProgram_getElem? (c : Config) {cs j : Nat} (tsm : Nat) (stream : Bytes) (h : j < cs) :
    (generateProgram c cs tsm stream)[j]? =
      some (generatedWord c tsm stream j).toNat := by
  simp [generateProgram, h]

theorem groupOpcode_lt (g : Bytes) : groupOpcode g < 16 := Nat.mod_lt _ (by omega)

theorem groupOperand_lt {len : Nat} (h : 0 < len) (g : Bytes) : groupOperand len g < len := Nat.mod_lt _ h

/-- The greatest tape has 2^32 bytes (R30, R163). -/
theorem tapeLength_le {c : Config} (hc : c.Legal) {tsm : Nat} (h : ParamInRange tsm) : tapeLength c tsm ≤ 2 ^ 32 := by
  have h1 := hc.baseInRange.2
  have h2 := h.2
  simp only [paramMax] at h1 h2
  exact Nat.le_trans (Nat.mul_le_mul h1 h2) (by norm_num)

/-- The operand field holds every index of a tape of the machine (D11). -/
theorem tapeLength_le_word {c : Config} (hc : c.Legal) {tsm : Nat} (h : ParamInRange tsm) :
    tapeLength c tsm ≤ 2 ^ c.addrWidth :=
  Nat.le_trans (Nat.mul_le_mul_left _ h.2) hc.wordHoldsEveryIndex

theorem tapeLength_pos {c : Config} (hc : c.Legal) {tsm : Nat} (h : ParamInRange tsm) : 0 < tapeLength c tsm :=
  Nat.mul_pos hc.baseInRange.1 h.1

/-- The value of a generated word (R92, R171 to R173). -/
theorem generatedWord_toNat {c : Config} (hc : c.Legal) {tsm : Nat} (h : ParamInRange tsm) (stream : Bytes) (j : Nat) :
    (generatedWord c tsm stream j).toNat =
      groupOperand (tapeLength c tsm) (streamGroup c tsm stream j) * 16 + groupOpcode (streamGroup c tsm stream j) :=
  pairWord_toNat (groupOpcode_lt _)
    (Nat.lt_of_lt_of_le (groupOperand_lt (tapeLength_pos hc h) _) (tapeLength_le_word hc h))

/-- A generated word decodes to the opcode and the operand of its group (R171 to R173, R175). -/
theorem decode_generatedWord {c : Config} (hc : c.Legal) {tsm : Nat} (h : ParamInRange tsm) (stream : Bytes) (j : Nat) :
    decode c.addrWidth (generatedWord c tsm stream j) =
      Instr.ofFields (BitVec.ofNat 4 (groupOpcode (streamGroup c tsm stream j)))
        (groupOperand (tapeLength c tsm) (streamGroup c tsm stream j)) :=
  decode_pairWord (groupOpcode_lt _)
    (Nat.lt_of_lt_of_le (groupOperand_lt (tapeLength_pos hc h) _) (tapeLength_le_word hc h))

end Sys2Proof.Machine
end

