-- ==== Sys2Proof/Laws/Sequencer.lean ====
section
/-! SUPPORT. What the sequencer can do at a step: one lemma for each row of R181, and the machine against the
machine of its configuration. -/

namespace Sys2Proof.Machine

/-! ### The host's present action -/

theorem sequencer_reset {c : Config} {run : Instr → State → Host.Outcome State Fault Refusal} {s : State}
    (h : hostNow s = .reset) : sequencer c run s = .next (resetBlock (hostTaken s)) := by
  simp [sequencer, h]

theorem sequencer_start {c : Config} {run : Instr → State → Host.Outcome State Fault Refusal} {s : State}
    {cmd : Command} (h : hostNow s = .start cmd) (q : s.phase.quiescent = true) :
    sequencer c run s = .next (startStep c cmd (hostTaken s)) := by
  simp [sequencer, h, q]

/-- Outside the quiescent phases every action but reset is ignored (R185). -/
theorem sequencer_busy {c : Config} {run : Instr → State → Host.Outcome State Fault Refusal} {s : State}
    (h : hostNow s ≠ .reset) (q : s.phase.quiescent = false) : sequencer c run s = advance c run (hostTaken s) := by
  unfold sequencer
  split <;> simp_all

/-- Without a command or a reset the sequencer takes its own step (R181). -/
theorem sequencer_advance {c : Config} {run : Instr → State → Host.Outcome State Fault Refusal} {s : State}
    (h : hostNow s ≠ .reset) (h' : ∀ cmd, hostNow s ≠ .start cmd) :
    sequencer c run s = advance c run (hostTaken s) := by
  unfold sequencer
  split <;> simp_all

/-! ### The sequencer's own step -/

theorem advance_quiescent {c : Config} {run : Instr → State → Host.Outcome State Fault Refusal} {s : State}
    (q : s.phase.quiescent = true) : advance c run s = .next s := by
  unfold advance
  split <;> simp_all [Phase.quiescent]

theorem advance_gen {c : Config} {run : Instr → State → Host.Outcome State Fault Refusal} {s : State}
    (h : s.phase = .gen) : advance c run s = .next (generationStep c s) := by
  simp [advance, h]

theorem advance_instruction {c : Config} {run : Instr → State → Host.Outcome State Fault Refusal} {s : State}
    {w : Nat} (h : s.phase = .run) (hpc : s.pc < s.codeSize) (hw : s.prog[s.pc]? = some w) :
    advance c run s = run (decodeStored c.addrWidth w) s := by
  simp [advance, h, hpc, fetch, hw]

theorem advance_finalization {c : Config} {run : Instr → State → Host.Outcome State Fault Refusal} {s : State}
    (h : s.phase = .run) (hpc : s.pc = s.codeSize) : advance c run s = .next (finalizationStep c s) := by
  simp [advance, h, hpc]

/-- Everything the sequencer's own step can do. -/
theorem advance_cases (c : Config) (run : Instr → State → Host.Outcome State Fault Refusal) (s : State) :
    (s.phase.quiescent = true ∧ advance c run s = .next s) ∨
    (s.phase = .gen ∧ advance c run s = .next (generationStep c s)) ∨
    (∃ w, s.phase = .run ∧ s.pc < s.codeSize ∧ s.prog[s.pc]? = some w ∧
      advance c run s = run (decodeStored c.addrWidth w) s) ∨
    (s.phase = .run ∧ s.pc = s.codeSize ∧ advance c run s = .next (finalizationStep c s)) ∨
    (s.phase = .run ∧ s.pc < s.codeSize ∧ s.prog[s.pc]? = none ∧
      advance c run s = .fault .fetchOutsideProgram) ∨
    (s.phase = .run ∧ s.codeSize < s.pc ∧ advance c run s = .fault .pcPastEndOfProgram) := by
  cases hp : s.phase with
  | idle => exact .inl ⟨rfl, by simp [advance, hp]⟩
  | done => exact .inl ⟨rfl, by simp [advance, hp]⟩
  | error => exact .inl ⟨rfl, by simp [advance, hp]⟩
  | gen => exact .inr (.inl ⟨rfl, advance_gen hp⟩)
  | run =>
    rcases Nat.lt_trichotomy s.pc s.codeSize with hlt | heq | hgt
    · cases hw : s.prog[s.pc]? with
      | some w => exact .inr (.inr (.inl ⟨w, rfl, hlt, rfl, advance_instruction hp hlt hw⟩))
      | none => exact .inr (.inr (.inr (.inr (.inl ⟨rfl, hlt, rfl, by simp [advance, hp, hlt, fetch, hw]⟩))))
    · exact .inr (.inr (.inr (.inl ⟨rfl, heq, advance_finalization hp heq⟩)))
    · refine .inr (.inr (.inr (.inr (.inr ⟨rfl, hgt, ?_⟩))))
      have h1 : ¬ s.pc < s.codeSize := by omega
      have h2 : ¬ s.pc = s.codeSize := by omega
      simp [advance, hp, h1, h2]

/-! ### START and generation -/

theorem generationStep_fails {c : Config} {s : State} (h : tapeLength c s.tsm < 1) :
    generationStep c s = raise .valueError s := if_pos h

theorem generationStep_loads {c : Config} {s : State} (h : 0 < tapeLength c s.tsm) :
    generationStep c s = loadGenerated c (seedStream c s.variant s.pre s.codeSize s.tsm) s := if_neg (by omega)

theorem startStep_error {c : Config} {cmd : Command} {s : State} {k : ErrKind} (h : validate c cmd = .error k) :
    startStep c cmd s = raise k (clearForStart s) := by
  simp [startStep, h]

theorem startStep_ok {c : Config} {cmd : Command} {s : State} {l : Latch} (h : validate c cmd = .ok l) :
    startStep c cmd s = latch l (clearForStart s) := by
  simp [startStep, h]

/-- A supplied parameter in range, or the default (R187), is in range. -/
theorem effective_inRange {supplied : Option Int} {default : Nat} (h : paramFault supplied = false)
    (hd : ParamInRange default) : ParamInRange (effective supplied default) := by
  cases supplied with
  | none => exact hd
  | some z =>
    simp [paramFault, paramMin, paramMax] at h
    simp only [effective, ParamInRange, paramMin, paramMax]
    omega

/-- What a command that passes validation latches (R187, R188). -/
theorem validate_ok {c : Config} (hc : c.Legal) {cmd : Command} {l : Latch} (h : validate c cmd = .ok l) :
    cmd.pre = .bytes l.pre ∧ l.variant = cmd.variant ∧ l.variant ≠ .noVariant ∧
    ParamInRange l.codeSize ∧ ParamInRange l.tsm ∧
    (l.variant = .tapehash1 → l.tsm = 1) ∧ (l.variant = .tapehash2 → l.codeSize = c.csDefault .tapehash2) := by
  unfold validate at h
  split at h
  case h_2 => cases h
  case h_1 p cs tsm hp hcs htsm =>
    split at h
    · cases h
    case isFalse hv =>
      split at h
      · cases h
      case isFalse hfc =>
        split at h
        · cases h
        case isFalse hft =>
          cases h
          refine ⟨?_, rfl, hv, ?_, ?_, ?_, ?_⟩
          · cases hpre : cmd.pre <;> simp_all [HV.asBytes]
          · exact effective_inRange (by simpa using hfc) (hc.csInRange _ hv)
          · exact effective_inRange (by simpa using hft) (hc.tsmInRange _ hv)
          · intro h1
            simp only at h1
            simp only [h1, usesTsm, suppliedInt, Option.some.injEq] at htsm
            subst htsm
            simp only [effective, h1]
            exact hc.tsmOfTapehash1
          · intro h2
            simp only at h2
            simp only [h2, usesCs, suppliedInt, Option.some.injEq] at hcs
            subst hcs
            simp [effective, h2]

/-! ### The machine and its configuration -/

/-- The machine is the machine of its own configuration. -/
theorem step_eq_stepWith (s : State) : step s = stepWith cfg s := by
  have : exec = execWith cfg := by
    funext i s
    exact exec_eq_execWith i s
  rw [step, stepWith, this]

end Sys2Proof.Machine
end

