-- ==== Sys2Proof/Laws/Commands.lean ====
section
/-! SUPPORT. Validation of a command in the words of R186 and R187: which commands raise which error, and what the
others latch. -/

namespace Sys2Proof.Machine

theorem asBytes_eq_none {v : HV} : v.asBytes = none ↔ ∀ p, v ≠ .bytes p := by cases v <;> simp [HV.asBytes]

theorem usesCs_iff {v : Variant} : usesCs v = true ↔ v = .tapehash1 ∨ v = .tapehash3 := by
  cases v <;> simp [usesCs]

theorem usesTsm_iff {v : Variant} : usesTsm v = true ↔ v = .tapehash2 ∨ v = .tapehash3 := by
  cases v <;> simp [usesTsm]

/-- The type test of a parameter fails exactly where the parameter is used, present and no `INT`. -/
theorem suppliedInt_eq_none {used : Bool} {x : Option HV} :
    suppliedInt used x = none ↔ used = true ∧ ∃ v, x = some v ∧ ∀ z, v ≠ .int z := by
  cases used <;> cases x with
  | none => simp [suppliedInt]
  | some v => cases v <;> simp [suppliedInt, HV.asInt]

/-- The value test of a parameter fails exactly where the parameter is used, present and out of range. -/
theorem paramFault_iff {used : Bool} {x : Option HV} {o : Option Int} (h : suppliedInt used x = some o) :
    paramFault o = true ↔ used = true ∧ ∃ z, x = some (.int z) ∧ (z < 1 ∨ 65536 < z) := by
  cases used with
  | false => simp [suppliedInt] at h; subst h; simp [paramFault]
  | true =>
    cases x with
    | none => simp [suppliedInt] at h; subst h; simp [paramFault]
    | some v =>
      cases v <;> simp [suppliedInt, HV.asInt] at h
      subst h; simp [paramFault, paramMin, paramMax]

theorem typeFault_iff (cmd : Command) :
    TypeFault cmd ↔ cmd.pre.asBytes = none ∨ suppliedInt (usesCs cmd.variant) cmd.cs = none ∨
      suppliedInt (usesTsm cmd.variant) cmd.tsm = none := by
  rw [suppliedInt_eq_none, suppliedInt_eq_none, asBytes_eq_none, usesCs_iff, usesTsm_iff]; rfl

theorem valueFault_iff {cmd : Command} {cs tsm : Option Int}
    (hcs : suppliedInt (usesCs cmd.variant) cmd.cs = some cs)
    (htsm : suppliedInt (usesTsm cmd.variant) cmd.tsm = some tsm) :
    ValueFault cmd ↔ cmd.variant = .noVariant ∨ paramFault cs = true ∨ paramFault tsm = true := by
  rw [paramFault_iff hcs, paramFault_iff htsm, usesCs_iff, usesTsm_iff]; rfl

/-- A command without a type fault supplies a preimage and two parameters (each perhaps none). -/
theorem supplies_of_not_typeFault {cmd : Command} (h : ¬ TypeFault cmd) :
    ∃ p cs tsm, cmd.pre.asBytes = some p ∧ suppliedInt (usesCs cmd.variant) cmd.cs = some cs ∧
      suppliedInt (usesTsm cmd.variant) cmd.tsm = some tsm := by
  rw [typeFault_iff] at h
  simp only [not_or] at h
  obtain ⟨p, hp⟩ := Option.ne_none_iff_exists'.1 h.1
  obtain ⟨cs, hcs⟩ := Option.ne_none_iff_exists'.1 h.2.1
  obtain ⟨tsm, htsm⟩ := Option.ne_none_iff_exists'.1 h.2.2
  exact ⟨p, cs, tsm, hp, hcs, htsm⟩

theorem validate_typeFault {c : Config} {cmd : Command} (h : TypeFault cmd) : validate c cmd = .error .typeError := by
  rw [typeFault_iff] at h
  unfold validate
  split
  case h_1 => simp_all
  case h_2 => rfl

theorem validate_valueFault {c : Config} {cmd : Command} (h : ¬ TypeFault cmd) (hv : ValueFault cmd) :
    validate c cmd = .error .valueError := by
  obtain ⟨p, cs, tsm, hp, hcs, htsm⟩ := supplies_of_not_typeFault h
  rw [valueFault_iff hcs htsm] at hv
  simp only [validate, hp, hcs, htsm]
  rcases hv with h | h | h <;> simp [h]

theorem effective_codeSize {c : Config} {cmd : Command} {o : Option Int}
    (h : suppliedInt (usesCs cmd.variant) cmd.cs = some o) (hf : paramFault o = false) :
    EffectiveCodeSize c cmd (effective o (c.csDefault cmd.variant)) := by
  obtain ⟨v, p, cs, tsm⟩ := cmd
  have pos : ∀ z, paramFault (some z) = false → ((z.toNat : Nat) : Int) = z := by
    intro z hz; simp [paramFault, paramMin, paramMax] at hz; omega
  cases v <;> (rcases cs with _ | (_ | _ | z | _)) <;>
    simp_all [usesCs, suppliedInt, EffectiveCodeSize, effective, HV.asInt] <;> (try subst h) <;> simp_all

theorem effective_tsm {c : Config} (hc : c.Legal) {cmd : Command} {o : Option Int}
    (h : suppliedInt (usesTsm cmd.variant) cmd.tsm = some o) (hf : paramFault o = false) :
    EffectiveTsm c cmd (effective o (c.tsmDefault cmd.variant)) := by
  obtain ⟨v, p, cs, tsm⟩ := cmd
  have pos : ∀ z, paramFault (some z) = false → ((z.toNat : Nat) : Int) = z := by
    intro z hz; simp [paramFault, paramMin, paramMax] at hz; omega
  have := hc.tsmOfTapehash1
  cases v <;> (rcases tsm with _ | (_ | _ | z | _)) <;>
    simp_all [usesTsm, suppliedInt, EffectiveTsm, effective, HV.asInt] <;> (try subst h) <;> simp_all

/-- A command without a fault passes, with the effective parameters of R187. -/
theorem validate_noFault {c : Config} (hc : c.Legal) {cmd : Command} (h : ¬ TypeFault cmd) (hv : ¬ ValueFault cmd) :
    ∃ l, validate c cmd = .ok l ∧ cmd.pre = .bytes l.pre ∧ l.variant = cmd.variant ∧
      EffectiveCodeSize c cmd l.codeSize ∧ EffectiveTsm c cmd l.tsm := by
  obtain ⟨p, cs, tsm, hp, hcs, htsm⟩ := supplies_of_not_typeFault h
  rw [valueFault_iff hcs htsm] at hv
  simp only [not_or, Bool.not_eq_true] at hv
  refine ⟨⟨cmd.variant, p, effective cs (c.csDefault cmd.variant), effective tsm (c.tsmDefault cmd.variant)⟩,
    ?_, ?_, rfl, effective_codeSize hcs hv.2.1, effective_tsm hc htsm hv.2.2⟩
  · simp [validate, hp, hcs, htsm, hv]
  · cases hx : cmd.pre <;> simp_all [HV.asBytes]

/-- Everything an accepted `START` can do. -/
theorem startStep_cases {c : Config} (hc : c.Legal) (cmd : Command) (s : State) :
    (TypeFault cmd ∧ startStep c cmd s = raise .typeError (clearForStart s)) ∨
    (¬ TypeFault cmd ∧ ValueFault cmd ∧ startStep c cmd s = raise .valueError (clearForStart s)) ∨
    (¬ TypeFault cmd ∧ ¬ ValueFault cmd ∧
      ∃ l, validate c cmd = .ok l ∧ startStep c cmd s = latch l (clearForStart s)) := by
  by_cases h : TypeFault cmd
  · exact .inl ⟨h, startStep_error (validate_typeFault h)⟩
  · by_cases h' : ValueFault cmd
    · exact .inr (.inl ⟨h, h', startStep_error (validate_valueFault h h')⟩)
    · obtain ⟨l, hl, _⟩ := validate_noFault hc h h'
      exact .inr (.inr ⟨h, h', l, hl, startStep_ok hl⟩)

end Sys2Proof.Machine
end

