-- ==== Sys2Proof/Laws/Instructions.lean ====
section
/-! SUPPORT. The effect of an instruction step under the machine's configuration, in the terms of R195. -/

namespace Sys2Proof.Machine

/-- A completed step under the default schedule has the effect of R195. -/
theorem completed_effect (f : Byte → Byte) {a : Nat} {s : State} (h : a < s.tape.len) :
    StepEffect f a s (completeInstruction (steppedTape f a a s.tape) s) where
  frame := rfl
  length := by simp
  bytes := fun _ hj => memRead_steppedTape f h h hj

/-- Under the machine's configuration a step whose operand is in bounds completes (R145, R195). -/
theorem instructionStep_cfg (k : Nat) (f : Byte → Byte) {a : Nat} {s : State} (h : a < s.tape.len) :
    instructionStep cfg k f a s = .next (completeInstruction (steppedTape f a a s.tape) s) :=
  instructionStep_completes cfg k f h h (cfg_rotSchedule _ _ _ _)

end Sys2Proof.Machine
end

