-- ==== Sys2Proof/Laws/PerInstr.lean ====
section
/-! SUPPORT. Statements about every instruction as text, one lemma per constructor. -/

/-! ### The family `EncodesInItsRow`: the word of an instruction carries the opcode bits of its table row (R94, R99). -/

/-- The word of `i` matches the row of the opcode table at its opcode number, and that row has its mnemonic. -/
def Sys2Proof.Laws.EncodesInItsRow.Statement (i : Sys2Proof.Instr) : Prop :=
  ∃ r, Sys2Proof.opcodeTable[i.opcode]? = some r ∧ r.mnemonic = i.mnemonic ∧
    ∀ n : Nat, r.Matches (Sys2Proof.encode n i)

/-- The low four bits of a word built from a pair, whatever the operand width. -/
theorem Sys2Proof.Laws.pairWord_and_mask {k : Nat} (hk : k < 16) (a n : Nat) :
    Sys2Proof.pairWord n k a &&& BitVec.ofNat (n + 4) 0xF = BitVec.ofNat (n + 4) k := by
  apply BitVec.eq_of_toNat_eq
  have hp : 2 ^ (n + 4) = 16 * 2 ^ n := by rw [Nat.pow_add]; omega
  have hn : 0 < 2 ^ n := Nat.two_pow_pos n
  have h15 : 15 % 2 ^ (n + 4) = 2 ^ 4 - 1 := Nat.mod_eq_of_lt (by omega)
  simp only [Sys2Proof.pairWord, BitVec.toNat_and, BitVec.toNat_ofNat]
  rw [h15, Nat.and_two_pow_sub_one_eq_mod, Nat.mod_mod_of_dvd _ (hp ▸ Nat.dvd_mul_right 16 _),
    Nat.mod_eq_of_lt (by omega : k < 2 ^ (n + 4))]
  omega

theorem Sys2Proof.Laws.EncodesInItsRow.ident (a : Nat) : Sys2Proof.Laws.EncodesInItsRow.Statement (.ident a) :=
  ⟨_, rfl, rfl, Sys2Proof.Laws.pairWord_and_mask (Sys2Proof.opcode_lt (.ident a)) a⟩

theorem Sys2Proof.Laws.EncodesInItsRow.dbl (a : Nat) : Sys2Proof.Laws.EncodesInItsRow.Statement (.dbl a) :=
  ⟨_, rfl, rfl, Sys2Proof.Laws.pairWord_and_mask (Sys2Proof.opcode_lt (.dbl a)) a⟩

theorem Sys2Proof.Laws.EncodesInItsRow.half (a : Nat) : Sys2Proof.Laws.EncodesInItsRow.Statement (.half a) :=
  ⟨_, rfl, rfl, Sys2Proof.Laws.pairWord_and_mask (Sys2Proof.opcode_lt (.half a)) a⟩

theorem Sys2Proof.Laws.EncodesInItsRow.op3 (a : Nat) : Sys2Proof.Laws.EncodesInItsRow.Statement (.op3 a) :=
  ⟨_, rfl, rfl, Sys2Proof.Laws.pairWord_and_mask (Sys2Proof.opcode_lt (.op3 a)) a⟩

theorem Sys2Proof.Laws.EncodesInItsRow.inc (a : Nat) : Sys2Proof.Laws.EncodesInItsRow.Statement (.inc a) :=
  ⟨_, rfl, rfl, Sys2Proof.Laws.pairWord_and_mask (Sys2Proof.opcode_lt (.inc a)) a⟩

theorem Sys2Proof.Laws.EncodesInItsRow.dec (a : Nat) : Sys2Proof.Laws.EncodesInItsRow.Statement (.dec a) :=
  ⟨_, rfl, rfl, Sys2Proof.Laws.pairWord_and_mask (Sys2Proof.opcode_lt (.dec a)) a⟩

theorem Sys2Proof.Laws.EncodesInItsRow.op6 (a : Nat) : Sys2Proof.Laws.EncodesInItsRow.Statement (.op6 a) :=
  ⟨_, rfl, rfl, Sys2Proof.Laws.pairWord_and_mask (Sys2Proof.opcode_lt (.op6 a)) a⟩

theorem Sys2Proof.Laws.EncodesInItsRow.quad (a : Nat) : Sys2Proof.Laws.EncodesInItsRow.Statement (.quad a) :=
  ⟨_, rfl, rfl, Sys2Proof.Laws.pairWord_and_mask (Sys2Proof.opcode_lt (.quad a)) a⟩

theorem Sys2Proof.Laws.EncodesInItsRow.op8 (a : Nat) : Sys2Proof.Laws.EncodesInItsRow.Statement (.op8 a) :=
  ⟨_, rfl, rfl, Sys2Proof.Laws.pairWord_and_mask (Sys2Proof.opcode_lt (.op8 a)) a⟩

theorem Sys2Proof.Laws.EncodesInItsRow.nswap (a : Nat) : Sys2Proof.Laws.EncodesInItsRow.Statement (.nswap a) :=
  ⟨_, rfl, rfl, Sys2Proof.Laws.pairWord_and_mask (Sys2Proof.opcode_lt (.nswap a)) a⟩

theorem Sys2Proof.Laws.EncodesInItsRow.op10 (a : Nat) : Sys2Proof.Laws.EncodesInItsRow.Statement (.op10 a) :=
  ⟨_, rfl, rfl, Sys2Proof.Laws.pairWord_and_mask (Sys2Proof.opcode_lt (.op10 a)) a⟩

theorem Sys2Proof.Laws.EncodesInItsRow.op11 (a : Nat) : Sys2Proof.Laws.EncodesInItsRow.Statement (.op11 a) :=
  ⟨_, rfl, rfl, Sys2Proof.Laws.pairWord_and_mask (Sys2Proof.opcode_lt (.op11 a)) a⟩

theorem Sys2Proof.Laws.EncodesInItsRow.op12 (a : Nat) : Sys2Proof.Laws.EncodesInItsRow.Statement (.op12 a) :=
  ⟨_, rfl, rfl, Sys2Proof.Laws.pairWord_and_mask (Sys2Proof.opcode_lt (.op12 a)) a⟩

theorem Sys2Proof.Laws.EncodesInItsRow.op13 (a : Nat) : Sys2Proof.Laws.EncodesInItsRow.Statement (.op13 a) :=
  ⟨_, rfl, rfl, Sys2Proof.Laws.pairWord_and_mask (Sys2Proof.opcode_lt (.op13 a)) a⟩

theorem Sys2Proof.Laws.EncodesInItsRow.op14 (a : Nat) : Sys2Proof.Laws.EncodesInItsRow.Statement (.op14 a) :=
  ⟨_, rfl, rfl, Sys2Proof.Laws.pairWord_and_mask (Sys2Proof.opcode_lt (.op14 a)) a⟩

theorem Sys2Proof.Laws.EncodesInItsRow.op15 (a : Nat) : Sys2Proof.Laws.EncodesInItsRow.Statement (.op15 a) :=
  ⟨_, rfl, rfl, Sys2Proof.Laws.pairWord_and_mask (Sys2Proof.opcode_lt (.op15 a)) a⟩
end

