-- ==== Sys2Proof/Laws/Step.lean ====
section
/-! SUPPORT. Everything that an instruction and one step of the machine can do, each said once. -/

namespace Sys2Proof.Machine

theorem quiescent_of {p : Phase} (h : p = .idle ∨ p = .done ∨ p = .error) : p.quiescent = true := by
  rcases h with rfl | rfl | rfl <;> rfl

theorem of_quiescent {p : Phase} (h : p.quiescent = true) : p = .idle ∨ p = .done ∨ p = .error := by
  cases p <;> simp_all [Phase.quiescent]

theorem not_quiescent_of {p : Phase} (h : p = .gen ∨ p = .run) : p.quiescent = false := by
  rcases h with rfl | rfl <;> rfl

/-- Everything the meaning of an instruction can do: complete with a new tape of the same length, or take the error
sequence. It never stops. -/
theorem exec_cases (i : Instr) (s : State) :
    (i.operand < s.tape.len ∧ ∃ m, exec i s = .next (completeInstruction m s) ∧ m.len = s.tape.len ∧
      (s.tape.wf → m.wf)) ∨
    exec i s = .next (raise .valueError s) := by
  rw [exec_eq_execWith, execWith]
  rcases instructionStep_cases cfg i.opcode (byteTransform cfg i) i.operand s with ⟨n, ha, hn, _, he⟩ | ⟨_, he⟩
  · exact .inl ⟨ha, _, he, by simp, fun hw => steppedTape_wf hw _ _ hn⟩
  · exact .inr he

/-- The two ways an instruction ends, from its next state. -/
theorem exec_eq_next {i : Instr} {s t : State} (h : exec i s = .next t) :
    (i.operand < s.tape.len ∧ ∃ m, t = completeInstruction m s ∧ m.len = s.tape.len ∧ (s.tape.wf → m.wf)) ∨
    t = raise .valueError s := by
  rcases exec_cases i s with ⟨ha, m, he, hm, hw⟩ | he
  · rw [he] at h; cases h; exact .inl ⟨ha, m, rfl, hm, hw⟩
  · rw [he] at h; cases h; exact .inr rfl

/-- Everything the generation step can do (R160, R190). -/
theorem generationStep_cases (c : Config) (s : State) :
    (c.baseTapeSize * s.tsm < 1 ∧ generationStep c s = raise .valueError s) ∨
    (1 ≤ c.baseTapeSize * s.tsm ∧
      generationStep c s = loadGenerated c (seedStream c s.variant s.pre s.codeSize s.tsm) s) := by
  rcases Nat.lt_or_ge (c.baseTapeSize * s.tsm) 1 with h | h
  · exact .inl ⟨h, generationStep_fails h⟩
  · exact .inr ⟨h, generationStep_loads h⟩

/-- Everything a step of the machine can do (R181, R185, R250). -/
theorem step_cases {s t : State} (h : step s = .next t) :
    (hostNow s = .reset ∧ t = resetBlock (hostTaken s)) ∨
    (hostNow s ≠ .reset ∧ s.phase.quiescent = true ∧
      ∃ cmd, hostNow s = .start cmd ∧ t = startStep cfg cmd (hostTaken s)) ∨
    (hostNow s ≠ .reset ∧ s.phase.quiescent = true ∧ (∀ cmd, hostNow s ≠ .start cmd) ∧ t = hostTaken s) ∨
    (hostNow s ≠ .reset ∧ s.phase = .gen ∧ t = generationStep cfg (hostTaken s)) ∨
    (hostNow s ≠ .reset ∧ s.phase = .run ∧ s.pc < s.codeSize ∧
      ∃ w, s.prog[s.pc]? = some w ∧ exec (decodeStored cfg.addrWidth w) (hostTaken s) = .next t) ∨
    (hostNow s ≠ .reset ∧ s.phase = .run ∧ s.pc = s.codeSize ∧ t = finalizationStep cfg (hostTaken s)) := by
  by_cases hr : hostNow s = .reset
  · rw [step, sequencer_reset hr] at h; cases h; exact .inl ⟨hr, rfl⟩
  by_cases hq : s.phase.quiescent = true
  · by_cases hc : ∃ cmd, hostNow s = .start cmd
    · obtain ⟨cmd, hc⟩ := hc
      rw [step, sequencer_start hc hq] at h; cases h
      exact .inr (.inl ⟨hr, hq, cmd, hc, rfl⟩)
    · simp only [not_exists] at hc
      rw [step, sequencer_advance hr hc, advance_quiescent (by simpa using hq)] at h; cases h
      exact .inr (.inr (.inl ⟨hr, hq, hc, rfl⟩))
  · have hb : s.phase.quiescent = false := by simpa using hq
    rw [step, sequencer_busy hr hb] at h
    rcases advance_cases cfg exec (hostTaken s) with
      ⟨hx, _⟩ | ⟨hp, he⟩ | ⟨w, hp, hpc, hw, he⟩ | ⟨hp, hpc, he⟩ | ⟨_, _, _, he⟩ | ⟨_, _, he⟩
    · simp [hb] at hx
    · rw [he] at h; cases h; exact .inr (.inr (.inr (.inl ⟨hr, by simpa using hp, rfl⟩)))
    · rw [he] at h
      exact .inr (.inr (.inr (.inr (.inl ⟨hr, by simpa using hp, by simpa using hpc, w, by simpa using hw, h⟩))))
    · rw [he] at h; cases h
      exact .inr (.inr (.inr (.inr (.inr ⟨hr, by simpa using hp, by simpa using hpc, rfl⟩))))
    · rw [he] at h; cases h
    · rw [he] at h; cases h

end Sys2Proof.Machine
end

