-- ==== Sys2Proof/Laws/Runs.lean ====
section
/-! SUPPORT. Runs of several steps: how they are put together, the value of `H`, and the host without reset. -/

namespace Sys2Proof.Machine

theorem runsTo_zero (c : Config) (s : State) : RunsTo c 0 s s := rfl

/-- A run with one more step in front. -/
theorem runsTo_cons {c : Config} {n : Nat} {s u t : State} (h : stepWith c s = .next u) (h' : RunsTo c n u t) :
    RunsTo c (n + 1) s t := by
  have hs : (coreWith c).step s = .next u := h
  simp only [RunsTo, Host.Core.run, hs]
  exact h'

/-- A run with one more step at its end. -/
theorem runsTo_snoc {c : Config} {n : Nat} :
    ∀ {s u t : State}, RunsTo c n s u → stepWith c u = .next t → RunsTo c (n + 1) s t := by
  induction n with
  | zero => intro s u t h h'; cases h; exact runsTo_cons h' rfl
  | succ n ih =>
    intro s u t h h'
    simp only [RunsTo, Host.Core.run] at h
    cases hs : (coreWith c).step s with
    | next v => rw [hs] at h; exact runsTo_cons hs (ih h h')
    | fault r => rw [hs] at h; cases h
    | refused r => rw [hs] at h; cases h

/-- Under a configuration that meets its constraints every scheduled amount has a rotation (R7, R144). -/
theorem amountsInBounds_of_legal {c : Config} (hc : c.Legal) {tsm : Nat} (h : ParamInRange tsm) (stream : Bytes)
    (n : Nat) : amountsInBounds c tsm stream n = true := by
  rw [amountsInBounds, List.all_eq_true]
  intro j _
  exact decide_eq_true (hc.rotInRange j _ _ _ (groupOperand_lt (tapeLength_pos hc h) _))

/-- `H` of a command that passes validation, under a configuration that meets its constraints (R200). -/
theorem hashFunction_ok {c : Config} (hc : c.Legal) {cmd : Command} {l : Latch} (h : validate c cmd = .ok l) :
    hashFunction c cmd =
      .digest (c.finalize (tapeAfter c l.tsm (seedStream c l.variant l.pre l.codeSize l.tsm) l.codeSize)) := by
  obtain ⟨_, _, _, _, ht, _⟩ := validate_ok hc h
  have := tapeLength_pos hc ht
  simp only [hashFunction, h, amountsInBounds_of_legal hc ht, if_true]
  exact if_neg (by omega)

theorem hostNow_ne_reset {s : State} (h : NoReset s.host) : hostNow s ≠ .reset := by
  unfold hostNow NoReset at *
  cases hh : s.host with
  | nil => simp
  | cons a l => rw [hh] at h; intro e; simp at e; exact h (by simp [e])

theorem noReset_hostTaken {s : State} (h : NoReset s.host) : NoReset (hostTaken s).host :=
  fun hm => h (List.mem_of_mem_tail hm)

end Sys2Proof.Machine
end

