-- ==== Sys2Proof/Laws/Text.lean ====
section
/-! SUPPORT. The pieces of the assembler notation: words of a line, digits, mnemonics. -/

namespace Sys2Proof.Machine

theorem splitAt_word {sep : Char → Bool} {w : List Char} (h : ∀ ch ∈ w, sep ch = false) : splitAt sep w = [w] := by
  induction w with
  | nil => rfl
  | cons ch cs ih => simp [splitAt, h ch (by simp), ih (fun c hc => h c (by simp [hc]))]

theorem splitAt_word_append {sep : Char → Bool} {w : List Char} {b : Char} (hb : sep b = true)
    (h : ∀ ch ∈ w, sep ch = false) (r : List Char) : splitAt sep (w ++ b :: r) = w :: splitAt sep r := by
  induction w with
  | nil => simp [splitAt, hb]
  | cons ch cs ih => simp [splitAt, h ch (by simp), ih (fun c hc => h c (by simp [hc]))]

/-- Lines joined by a separator are split into the same lines. -/
theorem splitAt_intercalate {sep : Char → Bool} {b : Char} (hb : sep b = true) :
    ∀ {lines : List (List Char)}, lines ≠ [] → (∀ l ∈ lines, ∀ ch ∈ l, sep ch = false) →
      splitAt sep (List.intercalate [b] lines) = lines
  | [], h, _ => absurd rfl h
  | [l], _, hl => by simpa [List.intercalate] using splitAt_word (hl l (by simp))
  | l :: l' :: ls, _, hl => by
    have ih := splitAt_intercalate hb (lines := l' :: ls) (by simp) (fun x hx => hl x (by simp [hx]))
    have e : List.intercalate [b] (l :: l' :: ls) = l ++ b :: List.intercalate [b] (l' :: ls) := by
      simp [List.intercalate, List.intersperse]
    rw [e, splitAt_word_append hb (hl l (by simp)), ih]

/-- The words between blanks. -/
def blankSeparated (t : List Char) : List (List Char) := (splitAt isBlank t).filter (fun w => !w.isEmpty)

theorem lineWords_eq (line : List Char) : lineWords line = blankSeparated (line.takeWhile (fun ch => ch ≠ ';')) := rfl

/-- Blanks before the first word give no word. -/
theorem blankSeparated_blanks_append {b : List Char} (h : ∀ ch ∈ b, isBlank ch = true) (r : List Char) :
    blankSeparated (b ++ r) = blankSeparated r := by
  induction b with
  | nil => rfl
  | cons ch cs ih =>
    have := ih (fun c hc => h c (by simp [hc]))
    simpa [blankSeparated, splitAt, h ch (by simp)] using this

/-- Blanks alone give no word. -/
theorem blankSeparated_blanks {b : List Char} (h : ∀ ch ∈ b, isBlank ch = true) : blankSeparated b = [] := by
  have := blankSeparated_blanks_append h []
  simpa [blankSeparated, splitAt] using this

/-- A word and the blanks after it. -/
theorem blankSeparated_word_append {w b : List Char} (hw : ∀ ch ∈ w, isBlank ch = false) (hne : w ≠ [])
    (hb : ∀ ch ∈ b, isBlank ch = true) (hbne : b ≠ []) (r : List Char) :
    blankSeparated (w ++ (b ++ r)) = w :: blankSeparated r := by
  obtain ⟨c, cs, rfl⟩ := List.exists_cons_of_ne_nil hbne
  rw [← blankSeparated_blanks_append (b := cs) (fun ch hc => hb ch (by simp [hc])) r]
  simp [blankSeparated, splitAt_word_append (hb c (by simp)) hw, hne]

/-- The last word of a line, with or without blanks after it. -/
theorem blankSeparated_word {w b : List Char} (hw : ∀ ch ∈ w, isBlank ch = false) (hne : w ≠ [])
    (hb : ∀ ch ∈ b, isBlank ch = true) : blankSeparated (w ++ b) = [w] := by
  by_cases hbne : b = []
  · subst hbne; simp [blankSeparated, splitAt_word hw, hne]
  · have := blankSeparated_word_append hw hne hb hbne []
    simpa [blankSeparated, splitAt] using this

theorem mnemonicChars_eq (i : Instr) : i.mnemonic.toList = mnemonicChars i := by
  cases i <;> simp [Instr.mnemonic, mnemonicChars]

theorem hexDigit_facts :
    ∀ n < 16, digitValue (hexDigit n) = some n ∧ isBlank (hexDigit n) = false ∧ hexDigit n ≠ ';' := by decide

theorem hexDigit_toLower_facts :
    ∀ n < 16, digitValue (hexDigit n).toLower = some n ∧ isBlank (hexDigit n).toLower = false ∧
      (hexDigit n).toLower ≠ ';' := by decide

theorem mem_hexDigits (k n : Nat) : ∀ ch ∈ hexDigits k n, ∃ d < 16, ch = hexDigit d := by
  induction k generalizing n with
  | zero => simp [hexDigits]
  | succ k ih =>
    intro ch h
    simp only [hexDigits, List.mem_append, List.mem_singleton] at h
    rcases h with h | h
    · exact ih _ ch h
    · exact ⟨_, Nat.mod_lt _ (by decide), h⟩

@[simp] theorem hexDigits_length (k n : Nat) : (hexDigits k n).length = k := by
  induction k generalizing n with
  | zero => rfl
  | succ k ih => simp [hexDigits, ih]

/-- The printed digits hold every operand of the field. -/
theorem two_pow_le_hexWidth (n : Nat) : 2 ^ n ≤ 16 ^ hexWidth n := by
  rw [show 16 = 2 ^ 4 from rfl, ← Nat.pow_mul]
  exact Nat.pow_le_pow_right (by decide) (by unfold hexWidth; omega)

theorem digitsValue_append (b acc : Nat) (l : List Char) (ch : Char) :
    digitsValue b acc (l ++ [ch]) = (digitsValue b acc l).bind (fun v => digitsValue b v [ch]) := by
  induction l generalizing acc with
  | nil => rfl
  | cons c cs ih =>
    simp only [List.cons_append, digitsValue]
    cases digitValue c with
    | none => rfl
    | some d => simp only; split; exact ih _; rfl

theorem digitsValue_hexDigits (k n : Nat) : digitsValue 16 0 (hexDigits k n) = some (n % 16 ^ k) := by
  induction k generalizing n with
  | zero => simp [hexDigits, digitsValue, Nat.mod_one]
  | succ k ih =>
    have hd := (hexDigit_facts (n % 16) (Nat.mod_lt _ (by decide))).1
    rw [hexDigits, digitsValue_append, ih]
    simp only [Option.bind_some, digitsValue, hd, Nat.mod_lt n (by decide : 16 > 0), if_true]
    rw [Nat.pow_succ', Nat.mod_mul]
    congr 1; ring

/-- What a written digit is read as. -/
theorem written_digit {d : Nat} {ch : Char} (hd : d < 16) (h : ch = hexDigit d ∨ ch = (hexDigit d).toLower) :
    digitValue ch = some d ∧ isBlank ch = false ∧ ch ≠ ';' := by
  rcases h with rfl | rfl
  · exact hexDigit_facts d hd
  · exact hexDigit_toLower_facts d hd

/-- Written digits are read as their value, from any value before them. -/
theorem digitsValue_written {base : Nat} (hb : base ≤ 16) {digits : List Nat} {t : List Char}
    (h : List.Forall₂ (fun d ch => ch = hexDigit d ∨ ch = (hexDigit d).toLower) digits t) (hlt : ∀ d ∈ digits, d < base)
    (acc : Nat) : digitsValue base acc t = some (digits.foldl (fun v d => v * base + d) acc) := by
  induction h generalizing acc with
  | nil => rfl
  | cons hd _ ih =>
    have h0 := hlt _ (List.mem_cons_self ..)
    simp only [digitsValue, (written_digit (by omega) hd).1, h0, if_true, List.foldl_cons]
    exact ih (fun d hd => hlt d (by simp [hd])) _

theorem WritesDigits.chars {base : Nat} {digits : List Nat} {t : List Char} (h : WritesDigits base digits t) :
    ∀ ch ∈ t, ∃ d < base, ch = hexDigit d ∨ ch = (hexDigit d).toLower := by
  obtain ⟨-, hlt, hf⟩ := h
  induction hf with
  | nil => simp
  | cons hd _ ih =>
    intro ch hc
    rcases List.mem_cons.1 hc with rfl | hc
    · exact ⟨_, hlt _ (by simp), hd⟩
    · exact ih (fun d hd => hlt d (by simp [hd])) ch hc

theorem WritesDigits.exists_cons {base : Nat} {digits : List Nat} {t : List Char} (h : WritesDigits base digits t) :
    ∃ ch cs, t = ch :: cs := by
  obtain ⟨hne, -, hf⟩ := h
  cases hf with
  | nil => exact absurd rfl hne
  | cons _ _ => exact ⟨_, _, rfl⟩

theorem decimalDigit_ne_x : ∀ d < 10, hexDigit d ≠ 'x' ∧ (hexDigit d).toLower ≠ 'x' := by decide

/-- A written operand is read as its value (R98). -/
theorem parseOperand_written {a : Nat} {t : List Char} (h : WritesOperand a t) : parseOperand t = some a := by
  obtain ⟨digits, ⟨rfl, h⟩ | ⟨rfl, u, rfl, h⟩⟩ := h
  · obtain ⟨ch, cs, rfl⟩ := h.exists_cons
    have hv := digitsValue_written (by decide) h.2.2 h.2.1 0
    unfold parseOperand
    split
    · rename_i heq
      simp at heq
    · rename_i d ds heq
      obtain ⟨k, hk, hx⟩ := h.chars 'x' (by rw [heq]; simp)
      rcases hx with hx | hx
      · exact absurd hx.symm (decimalDigit_ne_x k hk).1
      · exact absurd hx.symm (decimalDigit_ne_x k hk).2
    · rename_i heq
      rw [← heq]; exact hv
  · obtain ⟨ch, cs, rfl⟩ := h.exists_cons
    exact digitsValue_written (by decide) h.2.2 h.2.1 0

/-- A written operand is one word without a comment character. -/
theorem WritesOperand.chars {a : Nat} {t : List Char} (h : WritesOperand a t) :
    t ≠ [] ∧ ∀ ch ∈ t, isBlank ch = false ∧ ch ≠ ';' := by
  obtain ⟨digits, ⟨-, h⟩ | ⟨-, u, rfl, h⟩⟩ := h
  · obtain ⟨ch, cs, e⟩ := h.exists_cons
    refine ⟨by rw [e]; simp, fun ch hc => ?_⟩
    obtain ⟨d, hd, hx⟩ := h.chars ch hc
    exact (written_digit (by omega) hx).2
  · refine ⟨by simp, fun ch hc => ?_⟩
    rcases List.mem_cons.1 hc with rfl | hc
    · decide
    · rcases List.mem_cons.1 hc with rfl | hc
      · decide
      · obtain ⟨d, hd, hx⟩ := h.chars ch hc
        exact (written_digit hd hx).2

theorem Blanks.isBlank {b : List Char} (h : Blanks b) : ∀ ch ∈ b, isBlank ch = true ∧ ch ≠ ';' := by
  intro ch hc
  rcases h ch hc with rfl | rfl <;> decide

theorem mnemonic_facts (i : Instr) :
    (∀ ch ∈ mnemonicChars i, isBlank ch = false ∧ ch ≠ ';') ∧ mnemonicChars i ≠ [] ∧
      ∃ k, opcodeOfMnemonic (mnemonicChars i) = some k ∧ Instr.ofFields k i.operand = i := by
  cases i <;> exact ⟨by simp [mnemonicChars, isBlank], by simp [mnemonicChars], _, rfl, rfl⟩

/-- A comment is cut off, and a line without one is kept. -/
theorem takeWhile_comment {l : List Char} (h : ∀ ch ∈ l, ch ≠ ';') :
    l.takeWhile (fun ch => ch ≠ ';') = l ∧ ∀ r, (l ++ ';' :: r).takeWhile (fun ch => ch ≠ ';') = l := by
  induction l with
  | nil => simp
  | cons c cs ih =>
    have := h c (by simp)
    have := ih (fun c hc => h c (by simp [hc]))
    simp_all

/-- What stands before a comment. -/
theorem takeWhile_withComment {t line : List Char} (h : ∀ ch ∈ t, ch ≠ ';') (hl : WithComment t line) :
    line.takeWhile (fun ch => ch ≠ ';') = t := by
  rcases hl with rfl | ⟨r, rfl⟩
  · exact (takeWhile_comment h).1
  · exact (takeWhile_comment h).2 r

/-- The words of a line that writes an instruction. -/
theorem lineWords_of_writesInstr {i : Instr} {line : List Char} (h : WritesInstr i line) :
    ∃ t, WritesOperand i.operand t ∧ lineWords line = [mnemonicChars i, t] := by
  obtain ⟨b0, b1, b2, t, h0, h1, h2, hne, ht, hl⟩ := h
  obtain ⟨hm, hmne, -⟩ := mnemonic_facts i
  rw [mnemonicChars_eq] at hl
  refine ⟨t, ht, ?_⟩
  have hall : ∀ ch ∈ b0 ++ mnemonicChars i ++ b1 ++ t ++ b2, ch ≠ ';' := by
    simp only [List.mem_append]
    rintro ch ((((h | h) | h) | h) | h)
    · exact (h0.isBlank ch h).2
    · exact (hm ch h).2
    · exact (h1.isBlank ch h).2
    · exact (ht.chars.2 ch h).2
    · exact (h2.isBlank ch h).2
  rw [lineWords_eq, takeWhile_withComment hall hl, List.append_assoc, List.append_assoc, List.append_assoc,
    blankSeparated_blanks_append (fun ch h => (h0.isBlank ch h).1),
    blankSeparated_word_append (fun ch h => (hm ch h).1) hmne (fun ch h => (h1.isBlank ch h).1) hne,
    blankSeparated_word (fun ch h => (ht.chars.2 ch h).1) ht.chars.1 (fun ch h => (h2.isBlank ch h).1)]

end Sys2Proof.Machine
end

