-- ==== Sys2Proof/Tests/Slice0.lean ====
section
/-! SUPPORT. Tests with expected values from the spec (its encodings and 95_test_vectors.md), and for every
statement that has hypotheses a witness that meets them. -/

namespace Sys2Proof.Tests

open Sys2Proof Sys2Proof.Machine

/-! ### Helpers -/

/-- A state in `RUN` at `PC = 0` with a tape and a program, as the harness of `95_test_vectors.md` section 6 loads
it. -/
def loaded (tape : Bytes) (prog : List Nat) : State :=
  { State.reset with
    phase := .run, variant := .tapehash1, codeSize := prog.length, tsm := 1, tlen := tape.length
    tape := memOfBytes tape, prog := prog }

/-- What the vectors list of the state after a step. -/
def seen : Host.Outcome State Fault Refusal → Option (Phase × ErrCode × Nat × Bytes)
  | .next t => some (t.phase, t.err, t.pc, memBytes t.tape)
  | .fault _ | .refused _ => none

/-- What section 5.1 lists of the state after a step. -/
def status : Host.Outcome State Fault Refusal → Option (Phase × ErrCode × Bool)
  | .next t => some (t.phase, t.err, t.dvalid)
  | .fault _ | .refused _ => none

/-- One field of the next state. -/
def field {α : Type} (f : State → α) : Host.Outcome State Fault Refusal → Option α
  | .next t => some (f t)
  | .fault _ | .refused _ => none

/-- `NIB` of section 2.1. -/
def nib : Nat → Nat
  | 0 => 0
  | 1 => 1
  | 2 => 2
  | 3 => 4
  | 4 => 5
  | 5 => 7
  | _ => 9

/-- Byte `i` of `EXPAND_T` for the start value `x0` (section 2.1). -/
def expandTByte (x0 i : Nat) : Byte := BitVec.ofNat 8 (16 * ((x0 + i) % 16) + nib ((x0 + 3 * i) % 7))

/-- `EXPAND_T` (section 2.1). -/
def expandT (key : Bytes) (n : Nat) : Vector Byte n :=
  let x0 := (key.foldl (fun z b => z + b.toNat) 0 + key.length) % 256
  ⟨((List.range n).map (expandTByte x0)).toArray, by simp⟩

/-- A transform for each open opcode, all different, so that a test tells them apart: of this file only. -/
def opxT : OpenOpcode → Byte → Byte
  | .op3, v => v + 3
  | .op6, v => v + 6
  | .op8, v => v + 8
  | .op10, v => v + 10
  | .op11, v => v + 11
  | .op12, v => v + 12
  | .op13, v => v + 13
  | .op14, v => v + 14
  | .op15, v => v + 15

/-- `CFG_T` (section 2.1), its symbolic transforms replaced by `opxT`. -/
def cfgT : Config where
  baseTapeSize := 8
  csDefault := fun _ => 4
  tsmDefault := fun _ => 1
  opx := opxT
  expand := expandT
  keyser := defaultKeyser
  operandSeedBytes := 4
  rotSchedule := defaultRotSchedule
  addrWidth := 32
  finalize := defaultFinalize expandT
  preMax := none
  intWidth := 34
  optableVersion := 0

/-- A state in `IDLE` whose host presents one command. -/
def presenting (v : Variant) (pre : HV) (cs tsm : Option HV) : State :=
  { State.reset with host := [.start ⟨v, pre, cs, tsm⟩] }

/-- The end of the step in which a command is sampled (section 5.1). -/
def startEnd (v : Variant) (pre : HV) (cs tsm : Option HV) : Option (Phase × ErrCode × Bool) :=
  status (stepWith cfgT (presenting v pre cs tsm))

/-! ### WellFormed: an operand of 2^32 has no encoding (R92) -/

theorem test_wellFormed_refuses_wide_operands :
    (List.range 16).all (fun k => (Instr.ofFields (BitVec.ofNat 4 k) (2 ^ 32)).wellFormed 32 = false) = true := by
  decide

theorem test_wellFormed_accepts_the_widest_operand : (Instr.op15 (2 ^ 32 - 1)).wellFormed 32 = true := by decide

/-! ### Decoding: words written bit by bit, operand then opcode (R90, R114 to R129) -/

theorem test_decode_ident : decode 32 0b000000000000000000000000000001110000 = .ident 7 := by decide
theorem test_decode_dbl : decode 32 0b000000000000000000000000000001010001 = .dbl 5 := by decide
theorem test_decode_half : decode 32 0b000000000000000000000000000001010010 = .half 5 := by decide
theorem test_decode_op3 : decode 32 0b000000000000000000000000000000110011 = .op3 3 := by decide
theorem test_decode_inc : decode 32 0b000000000000000000000000000000110100 = .inc 3 := by decide
theorem test_decode_dec : decode 32 0b010100000110010001111001100000100101 = .dec 1348761986 := by decide
theorem test_decode_op6 : decode 32 0b000000000000000000000000000000100110 = .op6 2 := by decide
theorem test_decode_quad : decode 32 0b000000000000000000000000000001110111 = .quad 7 := by decide
theorem test_decode_op8 : decode 32 0b100000000000000000000000000000001000 = .op8 2147483648 := by decide
theorem test_decode_nswap : decode 32 0b000000000000000000000000000000101001 = .nswap 2 := by decide
theorem test_decode_op10 : decode 32 0b000000000000000000000000000000011010 = .op10 1 := by decide
theorem test_decode_op11 : decode 32 0b000000000000000000000000000000101011 = .op11 2 := by decide
theorem test_decode_op12 : decode 32 0b000000000000000000000000000000111100 = .op12 3 := by decide
theorem test_decode_op13 : decode 32 0b000000000000000000000000000001001101 = .op13 4 := by decide
theorem test_decode_op14 : decode 32 0b000000000000000000000000000001011110 = .op14 5 := by decide
theorem test_decode_op15 : decode 32 0b111111111111111111111111111111111111 = .op15 4294967295 := by decide

/-- A row's 36 bits in five whole bytes; a bit above the word is refused (R90). -/
theorem test_decodeTableWord :
    decodeTableWord 40 0x29 = some (.nswap 2) ∧ decodeTableWord 40 0x1000000029 = none := by decide

/-- Another `CFG.ADDR_W` (R8): a word of 20 + 4 bits, written bit by bit, and the operand its field cannot hold. -/
theorem test_another_operand_width :
    decode 20 0b101010111100110111101001 = .nswap 0xABCDE ∧ encode 20 (.nswap 0xABCDE) = 0xABCDE9 ∧
    encodePair 20 9 0x100000 = none ∧ (Instr.nswap 0x100000).wellFormed 20 = false ∧
    decodeNumber 20 0x1000000 = .error .widerThanAWord := by decide

/-- R98: `NSWAP 2` assembles to `0x000000029`; section 6, program A, in decimal and hexadecimal with comments. -/
theorem test_assemble :
    (assemble 32 "NSWAP 2".toList).toOption = some [0x000000029] ∧
    (assemble 32 "DBL 0\nINC 0x3 ; three\nQUAD 7".toList).toOption = some [0x000000001, 0x000000034, 0x000000077] ∧
    (assemble 32 "nswap 2".toList).toOption = none ∧ (assemble 32 "INC 4294967296".toList).toOption = none := by decide

/-! ### One instruction as a whole step (95_test_vectors.md sections 2.4 and 6) -/

theorem test_ident :
    seen (step (loaded [0x10, 0x20, 0x30, 0x40, 0x50] [0x000000030])) =
      some (.run, .none, 1, [0x40, 0x50, 0x10, 0x20, 0x30]) := by decide

theorem test_ident_operand_zero :
    seen (step (loaded [0x10, 0x20, 0x30, 0x40, 0x50] [0x000000000])) =
      some (.run, .none, 1, [0x10, 0x20, 0x30, 0x40, 0x50]) := by decide

theorem test_dbl_wraps :
    seen (step (loaded [0xFF, 0x80, 0x40, 0x01, 0xA5, 0x7F, 0xC3, 0x00] [0x000000011])) =
      some (.run, .none, 1, [0x00, 0x40, 0x01, 0xA5, 0x7F, 0xC3, 0x00, 0xFF]) := by decide

theorem test_dbl_out_of_bounds :
    seen (step (loaded [0x10, 0x20, 0x30, 0x40, 0x50] [0x000000051])) = some (.error, .value, 0, []) := by decide

theorem test_half :
    seen (step (loaded [0x10, 0x20, 0x30, 0x40, 0x50] [0x000000022])) =
      some (.run, .none, 1, [0x18, 0x40, 0x50, 0x10, 0x20]) := by decide

theorem test_half_rounds_down :
    seen (step (loaded [0x5A, 0x7F, 0xC3, 0x00, 0xFF, 0x00, 0x00, 0x00] [0x000000042])) =
      some (.run, .none, 1, [0x7F, 0x00, 0x00, 0x00, 0x5A, 0x7F, 0xC3, 0x00]) := by decide

theorem test_inc :
    seen (step (loaded [0x02, 0x02, 0x03, 0x04, 0x05, 0x06, 0x07, 0x08] [0x000000034])) =
      some (.run, .none, 1, [0x05, 0x05, 0x06, 0x07, 0x08, 0x02, 0x02, 0x03]) := by decide

theorem test_inc_wraps :
    seen (step (loaded [0xFF, 0x00, 0x80, 0x40, 0x01, 0xA5, 0x7F, 0xC3] [0x000000004])) =
      some (.run, .none, 1, [0x00, 0x00, 0x80, 0x40, 0x01, 0xA5, 0x7F, 0xC3]) := by decide

theorem test_dec :
    seen (step (loaded [0xC1, 0xD5, 0xE0, 0xF4, 0x09, 0x12, 0x27, 0x31] [0x000000025])) =
      some (.run, .none, 1, [0xDF, 0xF4, 0x09, 0x12, 0x27, 0x31, 0xC1, 0xD5]) := by decide

theorem test_dec_wraps :
    seen (step (loaded [0x00, 0x00, 0x80, 0x40, 0x01, 0xA5, 0x7F, 0xC3] [0x000000015])) =
      some (.run, .none, 1, [0xFF, 0x80, 0x40, 0x01, 0xA5, 0x7F, 0xC3, 0x00]) := by decide

theorem test_quad_top_index :
    seen (step (loaded [0x5F, 0x07, 0x08, 0x02, 0x02, 0x03, 0x05, 0x05] [0x000000077])) =
      some (.run, .none, 1, [0x14, 0x5F, 0x07, 0x08, 0x02, 0x02, 0x03, 0x05]) := by decide

theorem test_quad_wraps :
    seen (step (loaded [0x7F, 0x00, 0x00, 0x00, 0x5A, 0x7F, 0xC3, 0x00] [0x000000067])) =
      some (.run, .none, 1, [0x0C, 0x00, 0x7F, 0x00, 0x00, 0x00, 0x5A, 0x7F]) := by decide

theorem test_nswap :
    seen (step (loaded [0x10, 0x20, 0x30, 0x40, 0x50] [0x000000019])) =
      some (.run, .none, 1, [0x02, 0x30, 0x40, 0x50, 0x10]) := by decide

theorem test_nswap_run_e1 :
    seen (step (loaded [0x9C, 0x31, 0xC1, 0xD5, 0xDF, 0xF4, 0x09, 0x12] [0x000000059])) =
      some (.run, .none, 1, [0x4F, 0x09, 0x12, 0x9C, 0x31, 0xC1, 0xD5, 0xDF]) := by decide

/-- Section 2.3 for an open opcode on the tape of program C, operand 2, for every choice of its transform. -/
theorem openStep {i : Instr} {f : Byte → Byte} (hi : i.operand = 2) (hf : byteTransform cfg i = f) :
    seen (exec i (loaded [0x10, 0x21, 0x32, 0x43] [])) = some (.run, .none, 1, [f 0x32, 0x43, 0x10, 0x21]) := by
  have h : 2 < (loaded [0x10, 0x21, 0x32, 0x43] []).tape.len := by decide
  rw [exec_eq_execWith, execWith, hi, hf, instructionStep_cfg _ f h]
  simp only [seen, completeInstruction_tape]
  rw [memBytes_steppedTape f h h]
  rfl

theorem test_op3 : seen (exec (.op3 2) (loaded [0x10, 0x21, 0x32, 0x43] [])) =
    some (.run, .none, 1, [cfg.opx .op3 0x32, 0x43, 0x10, 0x21]) := openStep rfl rfl
theorem test_op6 : seen (exec (.op6 2) (loaded [0x10, 0x21, 0x32, 0x43] [])) =
    some (.run, .none, 1, [cfg.opx .op6 0x32, 0x43, 0x10, 0x21]) := openStep rfl rfl
theorem test_op8 : seen (exec (.op8 2) (loaded [0x10, 0x21, 0x32, 0x43] [])) =
    some (.run, .none, 1, [cfg.opx .op8 0x32, 0x43, 0x10, 0x21]) := openStep rfl rfl
theorem test_op10 : seen (exec (.op10 2) (loaded [0x10, 0x21, 0x32, 0x43] [])) =
    some (.run, .none, 1, [cfg.opx .op10 0x32, 0x43, 0x10, 0x21]) := openStep rfl rfl
theorem test_op11 : seen (exec (.op11 2) (loaded [0x10, 0x21, 0x32, 0x43] [])) =
    some (.run, .none, 1, [cfg.opx .op11 0x32, 0x43, 0x10, 0x21]) := openStep rfl rfl
theorem test_op12 : seen (exec (.op12 2) (loaded [0x10, 0x21, 0x32, 0x43] [])) =
    some (.run, .none, 1, [cfg.opx .op12 0x32, 0x43, 0x10, 0x21]) := openStep rfl rfl
theorem test_op13 : seen (exec (.op13 2) (loaded [0x10, 0x21, 0x32, 0x43] [])) =
    some (.run, .none, 1, [cfg.opx .op13 0x32, 0x43, 0x10, 0x21]) := openStep rfl rfl
theorem test_op14 : seen (exec (.op14 2) (loaded [0x10, 0x21, 0x32, 0x43] [])) =
    some (.run, .none, 1, [cfg.opx .op14 0x32, 0x43, 0x10, 0x21]) := openStep rfl rfl
theorem test_op15 : seen (exec (.op15 2) (loaded [0x10, 0x21, 0x32, 0x43] [])) =
    some (.run, .none, 1, [cfg.opx .op15 0x32, 0x43, 0x10, 0x21]) := openStep rfl rfl

/-- Each open opcode number selects its own transform (`opxT` adds the opcode number). -/
theorem test_open_opcodes_are_told_apart :
    [3, 6, 8, 10, 11, 12, 13, 14, 15].all (fun k =>
      executeOpcodePort cfgT (.int k) (.int 1) (.mutbytes [0x10, 0x20]) =
        .ok (.mutbytes [0x10, 0x20 + BitVec.ofInt 8 k])) = true := by decide

/-! ### The driver (sections 5.1 and 6) -/

/-- V1 to V5: one TypeError each. -/
theorem test_start_type_faults :
    startEnd .tapehash1 .other none none = some (.error, .type, false) ∧
    startEnd .tapehash1 (.int 5) none none = some (.error, .type, false) ∧
    startEnd .tapehash1 (.bytes [1]) (some .other) none = some (.error, .type, false) ∧
    startEnd .tapehash3 (.bytes [1]) none (some .other) = some (.error, .type, false) ∧
    startEnd .tapehash1 (.mutbytes [1]) none none = some (.error, .type, false) := by decide

/-- V6 to V11 and V14: one ValueError each. -/
theorem test_start_value_faults :
    startEnd .tapehash1 (.bytes [1]) (some (.int 0)) none = some (.error, .value, false) ∧
    startEnd .tapehash1 (.bytes [1]) (some (.int (-1))) none = some (.error, .value, false) ∧
    startEnd .tapehash1 (.bytes [1]) (some (.int 65537)) none = some (.error, .value, false) ∧
    startEnd .tapehash2 (.bytes [1]) none (some (.int 0)) = some (.error, .value, false) ∧
    startEnd .tapehash2 (.bytes [1]) none (some (.int (-1))) = some (.error, .value, false) ∧
    startEnd .tapehash3 (.bytes [1]) (some (.int 4)) (some (.int 65537)) = some (.error, .value, false) ∧
    startEnd .noVariant (.bytes [1]) none none = some (.error, .value, false) := by decide

/-- V12, V13, V15: type tests first. -/
theorem test_start_type_tests_first :
    startEnd .tapehash1 .other (some (.int 0)) none = some (.error, .type, false) ∧
    startEnd .tapehash3 (.bytes [1]) (some (.int 0)) (some .other) = some (.error, .type, false) ∧
    startEnd .noVariant .other none none = some (.error, .type, false) := by decide

/-- V16 to V20: validation passes, at both boundaries and with an unused argument of any kind. -/
theorem test_start_passes :
    startEnd .tapehash1 (.bytes [1]) (some (.int 4)) (some .other) = some (.gen, .none, false) ∧
    startEnd .tapehash2 (.bytes [1]) (some (.int 0)) (some (.int 1)) = some (.gen, .none, false) ∧
    startEnd .tapehash1 (.bytes [1]) (some (.int 1)) none = some (.gen, .none, false) ∧
    startEnd .tapehash1 (.bytes [1]) (some (.int 65536)) none = some (.gen, .none, false) ∧
    startEnd .tapehash1 (.bytes []) none none = some (.gen, .none, false) := by decide

/-- Run E1, step 1: what `START` latches. -/
theorem test_e1_start :
    field (fun t => (t.variant, t.pre, t.codeSize, t.tsm))
      (stepWith cfgT (presenting .tapehash1 (.bytes [0x74, 0x65, 0x73, 0x74]) (some (.int 4)) none)) =
      some (.tapehash1, [0x74, 0x65, 0x73, 0x74], 4, 1) := by decide

/-- Run E1, step 2: generation. -/
theorem test_e1_generation :
    field (fun t => (t.phase, t.tlen, memBytes t.tape, t.prog, t.pc))
      (stepWith cfgT { State.reset with
        phase := .gen, variant := .tapehash1, pre := [0x74, 0x65, 0x73, 0x74], codeSize := 4, tsm := 1 }) =
      some (.run, 8, [0xC1, 0xD5, 0xE0, 0xF4, 0x09, 0x12, 0x27, 0x31],
        [0x000000025, 0x000000047, 0x000000059, 0x000000070], 0) := by decide

/-- Run E3, step 2: generation with both parameters. -/
theorem test_e3_generation :
    field (fun t => (t.tlen, memBytes t.tape, t.prog))
      (stepWith cfgT { State.reset with
        phase := .gen, variant := .tapehash3, pre := [0x74, 0x65, 0x73, 0x74], codeSize := 3, tsm := 2 }) =
      some (16, [0x19, 0x22, 0x37, 0x41, 0x55, 0x60, 0x74, 0x89, 0x92, 0xA7, 0xB1, 0xC5, 0xD0, 0xE4, 0xF9, 0x02],
        [0x000000047, 0x000000059, 0x000000070]) := by decide

/-- Run E4, step 2: generation for variant 2, whose key has no `code_size`. -/
theorem test_e4_generation :
    field (fun t => (t.tlen, t.prog))
      (stepWith cfgT { State.reset with
        phase := .gen, variant := .tapehash2, pre := [0x01, 0x02], codeSize := 3, tsm := 2 }) =
      some (16, [0x000000014, 0x000000025, 0x000000047]) := by decide

/-- Run E1, step 7: finalization, read through the host's registers. -/
theorem test_e1_finalization :
    field (fun t => [hostRead t 0, hostRead t 1, hostRead t 2, hostRead t 8, hostRead t 9])
      (stepWith cfgT { loaded [0xDF, 0x4F, 0x09, 0x12, 0x9C, 0x31, 0xC1, 0xD5] [0, 0, 0, 0] with pc := 4 }) =
      some [some 0x00000023, some 0x47516570, some 0x8499A2B7, some 0x07112530, none] := by decide

/-- Runs E2 and E3 as values of `H` (R200). -/
theorem test_hashFunction :
    hashFunction cfgT ⟨.tapehash1, .bytes [0x6F, 0x74, 0x68, 0x65, 0x72], some (.int 4), none⟩ =
      .digest #v[0xB2, 0xC7, 0xD1, 0xE5, 0xF0, 0x04, 0x19, 0x22, 0x37, 0x41, 0x55, 0x60, 0x74, 0x89, 0x92, 0xA7,
        0xB1, 0xC5, 0xD0, 0xE4, 0xF9, 0x02, 0x17, 0x21, 0x35, 0x40, 0x54, 0x69, 0x72, 0x87, 0x91, 0xA5] ∧
    hashFunction cfgT ⟨.tapehash3, .bytes [0x74, 0x65, 0x73, 0x74], some (.int 3), some (.int 2)⟩ =
      .digest #v[0x55, 0x60, 0x74, 0x89, 0x92, 0xA7, 0xB1, 0xC5, 0xD0, 0xE4, 0xF9, 0x02, 0x17, 0x21, 0x35, 0x40,
        0x54, 0x69, 0x72, 0x87, 0x91, 0xA5, 0xB0, 0xC4, 0xD9, 0xE2, 0xF7, 0x01, 0x15, 0x20, 0x34, 0x49] := by
  decide

/-- R194: a schedule that answers -1 makes the first instruction raise, so the run ends in ValueError (log
entry 22). -/
theorem test_hashFunction_amount_out_of_range :
    hashFunction { cfgT with rotSchedule := fun _ _ _ _ => -1 }
      ⟨.tapehash1, .bytes [0x6F, 0x74, 0x68, 0x65, 0x72], some (.int 4), none⟩ = .valueError ∧
    status (stepWith { cfgT with rotSchedule := fun _ _ _ _ => -1 } (loaded [0x10, 0x20] [0x000000014])) =
      some (.error, .value, false) := by decide

/-- Program D, second step: `STATUS` after the error sequence, and `PC` where it was. -/
theorem test_error_sequence :
    field (fun t => (hostRead t 0, t.pc, memBytes t.tape, t.prog))
      (step { loaded [0x22, 0x32, 0x43, 0x10] [0x000000014, 0x000000041, 0x000000000] with pc := 1 }) =
      some (some 0x00000014, 1, [], []) := by decide

/-- Section 5.1: a command during `RUN` changes nothing; reset abandons the run. -/
theorem test_host_during_run :
    seen (step { loaded [0x80] [0x000000004] with host := [.start ⟨.tapehash1, .bytes [], none, none⟩] }) =
      some (.run, .none, 1, [0x81]) ∧
    seen (step { loaded [0x80] [0x000000004] with host := [.reset] }) = some (.idle, .none, 0, []) := by decide

/-- A word placed in the reset state runs at the next step. -/
theorem test_withFetchWord :
    field (fun t => (t.phase, t.pc, t.tape.cells))
      (step (State.withFetchWord State.reset 40 0xFFFFFFFF4)) = some (.run, 1, [(0, 1)]) := by decide

/-! ### The unit ports (sections 5.2 and 5.3) -/

/-- X1 to X9. -/
theorem test_execute_opcode_errors :
    executeOpcodePort cfgT (.int 16) (.int 0) (.mutbytes [0x01]) = .error .valueError ∧
    executeOpcodePort cfgT (.int (-1)) (.int 0) (.mutbytes [0x01]) = .error .valueError ∧
    executeOpcodePort cfgT (.int 1) (.int 1) (.mutbytes [0x01]) = .error .valueError ∧
    executeOpcodePort cfgT (.int 1) (.int (-1)) (.mutbytes [0x01]) = .error .valueError ∧
    executeOpcodePort cfgT (.int 1) (.int 0) (.mutbytes []) = .error .valueError ∧
    executeOpcodePort cfgT (.int 1) (.int 0) (.bytes [0x01]) = .error .typeError ∧
    executeOpcodePort cfgT .other (.int 0) (.mutbytes [0x01]) = .error .typeError ∧
    executeOpcodePort cfgT (.int 1) .other (.mutbytes [0x01]) = .error .typeError ∧
    executeOpcodePort cfgT (.int 16) (.int 0) (.bytes [0x01]) = .error .typeError := by decide

/-- X10 to X12 and X14. -/
theorem test_execute_opcode :
    executeOpcodePort cfgT (.int 1) (.int 0) (.mutbytes [0x01]) = .ok (.mutbytes [0x02]) ∧
    executeOpcodePort cfgT (.int 5) (.int 0) (.mutbytes [0x00]) = .ok (.mutbytes [0xFF]) ∧
    executeOpcodePort cfgT (.int 9) (.int 0) (.mutbytes [0x12]) = .ok (.mutbytes [0x21]) ∧
    executeOpcodePort cfgT (.int 4) (.int 2) (.mutbytes [0x0A, 0x0B, 0xFF]) = .ok (.mutbytes [0x0A, 0x0B, 0x00]) := by
  decide

/-- Y1 to Y9. -/
theorem test_rotate_tape :
    rotateTapePort (.mutbytes []) (.int 0) = .error .valueError ∧
    rotateTapePort (.mutbytes []) (.int 7) = .error .valueError ∧
    rotateTapePort (.mutbytes [0x10, 0x20, 0x30]) (.int 3) = .error .valueError ∧
    rotateTapePort (.mutbytes [0x10, 0x20, 0x30]) (.int (-1)) = .error .valueError ∧
    rotateTapePort (.bytes [0x10, 0x20, 0x30]) (.int 1) = .error .typeError ∧
    rotateTapePort (.mutbytes [0x10, 0x20, 0x30]) .other = .error .typeError ∧
    rotateTapePort (.mutbytes []) .other = .error .typeError ∧
    rotateTapePort (.mutbytes [0x10, 0x20, 0x30]) (.int 0) = .ok (.bytes [0x10, 0x20, 0x30]) ∧
    rotateTapePort (.mutbytes [0x10, 0x20, 0x30]) (.int 2) = .ok (.bytes [0x30, 0x10, 0x20]) := by decide

/-! ### Witnesses: the hypotheses of each statement are met -/

/-- The tape of section 2.4, in `RUN` before one instruction. -/
def five : State := loaded [0x10, 0x20, 0x30, 0x40, 0x50] [0x000000044]

/-- A tape of one byte. -/
def one : State := loaded [0x80] [0x000000004]

/-- A state in `GEN` with a given multiplier. -/
def generating (tsm : Nat) : State :=
  { State.reset with phase := .gen, variant := .tapehash1, codeSize := 1, tsm := tsm }

/-- A command that passes validation. -/
def goodCmd : Command := ⟨.tapehash1, .bytes [], none, none⟩

/-- A command with a type fault and a value fault. -/
def typeCmd : Command := ⟨.tapehash1, .other, some (.int 0), none⟩

/-- A command with a value fault only. -/
def valueCmd : Command := ⟨.tapehash1, .bytes [], some (.int 65537), none⟩

/-- A state of a given phase whose host presents a command. -/
def asks (p : Phase) (cmd : Command) : State := { State.reset with phase := p, host := [.start cmd] }

/-- A state in `RUN` that meets the invariant of the machine's own configuration, whatever its open values are: a tape
of zeros and one `IDENT 0`. -/
def invRun : State :=
  { State.reset with
    phase := .run, variant := .tapehash1, codeSize := 1, tsm := 1, tlen := cfg.baseTapeSize
    tape := ⟨cfg.baseTapeSize, []⟩, prog := [0] }

/-- A legal operand and one past the end, both on the same tape, and both with an encoding. -/
theorem inAndOut : 4 < five.tape.len ∧ five.tape.len ≤ 5 ∧ 5 < 2 ^ 32 := by decide

theorem goodCmd_noFault : ¬ TypeFault goodCmd ∧ ¬ ValueFault goodCmd := by
  refine ⟨by rw [typeFault_iff]; decide, ?_⟩
  rw [valueFault_iff (cs := none) (tsm := none) rfl rfl]; decide

theorem typeCmd_fault : TypeFault typeCmd := by rw [typeFault_iff]; decide

theorem valueCmd_fault : ¬ TypeFault valueCmd ∧ ValueFault valueCmd := by
  refine ⟨by rw [typeFault_iff]; decide, ?_⟩
  rw [valueFault_iff (cs := some 65537) (tsm := none) rfl rfl]; decide

theorem asks_presents (p : Phase) (cmd : Command) (h : p = .idle ∨ p = .done ∨ p = .error) :
    Presents cmd (asks p cmd) := ⟨h, rfl, by simp [asks, NoReset]⟩

theorem cfgT_legal : cfgT.Legal where
  baseInRange := by decide
  csInRange := fun _ _ => (by decide : ParamInRange 4)
  tsmInRange := fun _ _ => (by decide : ParamInRange 1)
  tsmOfTapehash1 := rfl
  seedBytes := by decide
  wordHoldsEveryIndex := by decide
  rotInRange := fun _ _ a len h => ⟨Int.natCast_nonneg a, Int.ofNat_lt.2 h⟩
  intWide := by decide

theorem step_generating (tsm : Nat) : step (generating tsm) = .next (generationStep cfg (generating tsm)) := rfl

theorem generating_loads :
    generationStep cfg (generating 1) = loadGenerated cfg (seedStream cfg .tapehash1 [] 1 1) (generating 1) :=
  generationStep_loads (tapeLength_pos cfg_legal (tsm := 1) (by decide))

theorem witness_EveryWordDecodesToItsTwoFields :
    2 ^ 36 - 1 < 2 ^ (32 + 4) ∧ five.tape.len ≤ (2 ^ 36 - 1) / 16 := by decide

theorem witness_SampleWordsDecodeToTheirInstructions : 2 ^ 36 ≤ 2 ^ 36 := by decide

theorem witness_EncodeAndDecodeAreInverse :
    (Instr.op15 (2 ^ 32 - 1)).wellFormed 32 = true ∧
    ((0 : Int) ≤ 15 ∧ (15 : Int) < 16 ∧ (0 : Int) ≤ 2 ^ 32 - 1 ∧ (2 ^ 32 - 1 : Int) < 2 ^ 32) ∧
    ¬ ((0 : Int) ≤ 16 ∧ (16 : Int) < 16 ∧ (0 : Int) ≤ 0 ∧ (0 : Int) < 2 ^ 32) ∧
    ¬ ((0 : Int) ≤ 0 ∧ (0 : Int) < 16 ∧ (0 : Int) ≤ 2 ^ 32 ∧ (2 ^ 32 : Int) < 2 ^ 32) ∧
    ([0x10] : Bytes).length ≤ 2 ^ 32 := by decide

/-- The example of R98. -/
theorem writes_nswap : WritesInstr (.nswap 2) "NSWAP 2".toList :=
  ⟨[], [' '], [], ['2'], by simp [Blanks], by simp [Blanks], by simp [Blanks], by simp,
    ⟨[2], .inl ⟨rfl, by simp, by decide, .cons (.inl rfl) .nil⟩⟩, .inl (by decide)⟩

/-- A hexadecimal operand and a comment, as in program A of 95_test_vectors.md section 6. -/
theorem writes_inc : WritesInstr (.inc 3) "INC 0x3 ; three".toList :=
  ⟨[], [' '], [' '], ['0', 'x', '3'], by simp [Blanks], by simp [Blanks], by simp [Blanks], by simp,
    ⟨[3], .inr ⟨rfl, _, rfl, by simp, by decide, .cons (.inl rfl) .nil⟩⟩, .inr ⟨" three".toList, by decide⟩⟩

/-- An operand of 2^32. -/
theorem writes_wide : WritesInstr (.inc 4294967296) "INC 4294967296".toList :=
  ⟨[], [' '], [], "4294967296".toList, by simp [Blanks], by simp [Blanks], by simp [Blanks], by simp,
    ⟨[4, 2, 9, 4, 9, 6, 7, 2, 9, 6], .inl ⟨rfl, by simp, by decide, by
      rw [show "4294967296".toList = ['4', '2', '9', '4', '9', '6', '7', '2', '9', '6'] by decide]
      repeat' first | exact .nil | refine .cons (.inl rfl) ?_⟩⟩, .inl (by decide)⟩

/-- A line with a comment only. -/
theorem writes_comment : WritesNothing "; program A".toList :=
  ⟨[], by simp [Blanks], .inr ⟨" program A".toList, by decide⟩⟩

theorem witness_WrittenInstructionsAreReadBack :
    (WritesInstr (.nswap 2) "NSWAP 2".toList ∧ (Instr.nswap 2).wellFormed 32 = true) ∧
    (WritesInstr (.inc 3) "INC 0x3 ; three".toList ∧ (Instr.inc 3).wellFormed 32 = true) ∧
    (WritesInstr (.inc 4294967296) "INC 4294967296".toList ∧ (Instr.inc 4294967296).wellFormed 32 = false) ∧
    WritesNothing "; program A".toList :=
  ⟨⟨writes_nswap, by decide⟩, ⟨writes_inc, by decide⟩, ⟨writes_wide, by decide⟩, writes_comment⟩

/-- The last clause's premise at a position after the line that writes nothing. -/
theorem witness_ProgramsAssembleLineByLine :
    ∃ program : List (Option Instr × List Char), (∀ p ∈ program, WritesLine 32 p) ∧
      (program.filterMap Prod.fst)[1]? = some (.inc 3) := by
  refine ⟨[(some (.nswap 2), "NSWAP 2".toList), (none, "; program A".toList),
    (some (.inc 3), "INC 0x3 ; three".toList)], ?_, rfl⟩
  simp only [List.mem_cons, List.not_mem_nil, or_false, forall_eq_or_imp, forall_eq]
  exact ⟨⟨writes_nswap, by decide, by decide⟩, ⟨writes_comment, by decide⟩, writes_inc, by decide, by decide⟩

theorem witness_IdentKeepsTheByteAndStillRotates : 4 < five.tape.len ∧ five.tape.len ≤ 5 ∧ 5 < 2 ^ 32 := inAndOut
theorem witness_DblDoublesTheAddressedByte : 4 < five.tape.len ∧ five.tape.len ≤ 5 ∧ 5 < 2 ^ 32 := inAndOut
theorem witness_HalfHalvesTheAddressedByte : 4 < five.tape.len ∧ five.tape.len ≤ 5 ∧ 5 < 2 ^ 32 := inAndOut
theorem witness_IncAddsOneToTheAddressedByte : 4 < five.tape.len ∧ five.tape.len ≤ 5 ∧ 5 < 2 ^ 32 := inAndOut
theorem witness_DecTakesOneFromTheAddressedByte : 4 < five.tape.len ∧ five.tape.len ≤ 5 ∧ 5 < 2 ^ 32 := inAndOut
theorem witness_QuadQuadruplesTheAddressedByte : 4 < five.tape.len ∧ five.tape.len ≤ 5 ∧ 5 < 2 ^ 32 := inAndOut
theorem witness_NswapExchangesTheNibblesOfTheAddressedByte :
    4 < five.tape.len ∧ five.tape.len ≤ 5 ∧ 5 < 2 ^ 32 ∧ (0x33 : Byte).toNat % 16 = (0x33 : Byte).toNat / 16 := by decide
theorem witness_OpenOpcodesApplyTheirConfiguredTransforms : 4 < five.tape.len ∧ five.tape.len ≤ 5 ∧ 5 < 2 ^ 32 :=
  inAndOut

theorem witness_NamedHypothesesMakeOpcodesThreeAndEightHalveEvenBytes :
    (0xFE : Byte).toNat % 2 = 0 ∧ POp3Even { cfgT with opx := fun _ => halfByte } ∧
      POp8Even { cfgT with opx := fun _ => halfByte } := by
  have h : ∀ v : Byte, v.toNat % 2 = 0 → (halfByte v).toNat = v.toNat / 2 := by decide
  exact ⟨by decide, h, h⟩

/-- The last case under a configuration whose schedule is out of range. -/
theorem witness_InstructionStepTransformsThenRotatesByTheSchedule :
    five.tape.len ≤ (Instr.dbl 5).operand ∧ (Instr.inc 4).operand < five.tape.len ∧
    cfgT.rotSchedule five.pc 4 4 five.tlen = (4 : Nat) ∧ 4 < five.tape.len ∧
    ({ cfgT with rotSchedule := fun _ _ _ _ => -1 } : Config).rotSchedule five.pc 4 4 five.tlen < 0 ∧
    (five.tape.len : Int) ≤ ({ cfgT with rotSchedule := fun _ _ _ len => len } : Config).rotSchedule five.pc 4 4 five.tlen := by
  decide

theorem witness_DefaultRotationBringsTheTransformedByteToTheFront :
    ((Instr.inc 4).operand < five.tape.len ∧ 0 < (Instr.inc 4).operand) ∧
    ((Instr.inc 0).operand < five.tape.len ∧ (Instr.inc 0).operand = 0) ∧
    (Instr.inc 0).operand < one.tape.len ∧ one.tape.len = 1 := by decide

theorem witness_AnOperandOutsideTheTapeTakesTheErrorSequence :
    five.tape.len ≤ (Instr.dbl 5).operand ∧ State.reset.tape.len ≤ (Instr.dbl 0).operand := by decide

theorem witness_ExecuteOpcodePortMeetsItsContract :
    (∀ k, HV.other ≠ .int k) ∧ (∀ a, HV.other ≠ .int a) ∧ (∀ t, HV.bytes [0x01] ≠ .mutbytes t) ∧
    ([] : Bytes).length = 0 ∧ (-1 : Int) < 0 ∧ (16 : Int) ≤ 16 ∧ (([0x01] : Bytes).length : Int) ≤ 1 ∧
    ((0 : Int) ≤ 15 ∧ (15 : Int) < 16 ∧ (0 : Int) ≤ 0 ∧ (0 : Int) < (([0x01] : Bytes).length : Int)) := by
  refine ⟨?_, ?_, ?_, by decide, by decide, by decide, by decide, by decide⟩ <;> intro x h <;> cases h

theorem witness_RotateTapePortMeetsItsContract :
    (∀ t, HV.bytes [0x10] ≠ .mutbytes t) ∧ (∀ z, HV.other ≠ .int z) ∧ ([] : Bytes).length = 0 ∧ (-1 : Int) < 0 ∧
    (([0x10, 0x20] : Bytes).length : Int) ≤ 2 ∧ ((1 : Int) = (1 : Nat) ∧ 1 < ([0x10, 0x20] : Bytes).length) := by
  refine ⟨?_, ?_, by decide, by decide, by decide, by decide⟩ <;> intro x h <;> cases h

theorem witness_RotationObeysItsLaws :
    (five.tape.wf ∧ 0 < five.tape.len ∧ 4 < five.tape.len ∧ 1 ≤ 4 ∧ 4 ≤ five.tape.len - 1) ∧
    one.tape.wf ∧ 0 < one.tape.len ∧ one.tape.len = 1 := by decide

theorem witness_KeyIsThePreimageThenTheUsedParameters : 2 ^ 32 - 1 < 2 ^ 32 := by decide

theorem witness_GenerationBuildsTapeAndProgramFromOneStream :
    cfgT.Legal ∧ cfg.Legal ∧ (generating 1).phase = .gen ∧ hostNow (generating 1) ≠ .reset ∧
    ParamInRange (generating 1).tsm ∧ ParamInRange (generating 65536).tsm ∧ 0 < (generating 1).codeSize :=
  ⟨cfgT_legal, cfg_legal, rfl, by decide, by decide, by decide, by decide⟩

theorem witness_TapeLengthIsComputedAndTested :
    (generating 1).phase = .gen ∧ hostNow (generating 1) ≠ .reset ∧
    ({ cfgT with baseTapeSize := 0 } : Config).baseTapeSize * (generating 1).tsm < 1 ∧
    1 ≤ ({ cfgT with baseTapeSize := 1 } : Config).baseTapeSize * (generating 1).tsm := by decide

theorem witness_GeneratedInstructionsAreInBoundsAndNeverRaise :
    ∃ (s t : State) (w : Nat) (u : State), s.phase = .gen ∧ ParamInRange s.tsm ∧ hostNow s ≠ .reset ∧
      step s = .next t ∧ w ∈ t.prog ∧ u.tape.len = t.tlen := by
  exact ⟨generating 1, _, _, { five with tape := ⟨_, []⟩ }, rfl, by decide, by decide,
    (step_generating 1).trans (congrArg _ generating_loads),
    List.mem_of_getElem? (generateProgram_getElem? cfg 1 (seedStream cfg .tapehash1 [] 1 1) (by decide : 0 < 1)), rfl⟩

theorem witness_AStepRunsTheDecodedInstruction :
    five.phase = .run ∧ five.pc < five.codeSize ∧ hostNow five ≠ .reset ∧ (Instr.inc 4).wellFormed cfg.addrWidth = true ∧
      five.prog[five.pc]? = some (encode cfg.addrWidth (.inc 4)).toNat ∧ five.prog.length = five.codeSize := by decide

theorem witness_AWordPlacedForFetchIsTheNextInstruction :
    decodeTableWord 40 0xFFFFFFFF4 = some (.inc 4294967295) := by decide

theorem witness_CommandsAreAcceptedOnlyInQuiescentPhases :
    (asks .idle goodCmd).phase = .idle ∧ (asks .done goodCmd).phase = .done ∧ (asks .error goodCmd).phase = .error ∧
    HostAction.start goodCmd ≠ .reset ∧ HostAction.write 0 1 ≠ .reset ∧ (generating 1).phase = .gen ∧
      five.phase = .run := by decide

theorem witness_StartValidatesThenLatches :
    ((asks .idle typeCmd).phase = .idle ∧ hostNow (asks .idle typeCmd) = .start typeCmd ∧ TypeFault typeCmd) ∧
    ((asks .done valueCmd).phase = .done ∧ hostNow (asks .done valueCmd) = .start valueCmd ∧
      ¬ TypeFault valueCmd ∧ ValueFault valueCmd) ∧
    ((asks .error goodCmd).phase = .error ∧ hostNow (asks .error goodCmd) = .start goodCmd ∧
      ¬ TypeFault goodCmd ∧ ¬ ValueFault goodCmd) :=
  ⟨⟨rfl, rfl, typeCmd_fault⟩, ⟨rfl, rfl, valueCmd_fault⟩, ⟨rfl, rfl, goodCmd_noFault⟩⟩

theorem witness_UnusedArgumentsHaveNoEffect :
    goodCmd.variant = .tapehash1 ∧ (⟨.tapehash2, .bytes [], none, none⟩ : Command).variant = .tapehash2 ∧
    (⟨.noVariant, .bytes [], none, none⟩ : Command).variant = .noVariant ∧
    (⟨.noVariant, .bytes [], none, none⟩ : Command).pre = .bytes [] ∧ State.reset.phase = .idle := by decide

/-- One step for every row of R182. -/
theorem witness_PhaseTransitionsAreThoseOfTheTable :
    field (·.phase) (step { five with host := [.reset] }) = some .idle ∧
    (∃ t, step (asks .idle goodCmd) = .next t ∧ t.phase = .gen) ∧
    field (·.phase) (step (asks .done typeCmd)) = some .error ∧
    (∃ t, step (generating 1) = .next t ∧ t.phase = .run) ∧
    (∃ t, step (generating 0) = .next t ∧ t.phase = .error) ∧
    field (·.phase) (step five) = some .run ∧
    field (·.phase) (step (loaded [0x10] [0x000000051])) = some .error ∧
    (∃ t, step { five with pc := 1 } = .next t ∧ t.phase = .done) := by
  refine ⟨by decide, ⟨_, rfl, rfl⟩, by decide, ?_, ?_, by decide, by decide, ⟨_, rfl, rfl⟩⟩
  · exact ⟨_, (step_generating 1).trans (congrArg _ generating_loads), rfl⟩
  · exact ⟨_, (step_generating 0).trans (congrArg _ (generationStep_fails (by decide))), rfl⟩

theorem witness_RunStepsAdvanceTheCounterAndKeepTheProgram :
    ∃ t, five.phase = .run ∧ step five = .next t ∧ t.phase = .run := ⟨_, rfl, rfl, rfl⟩

theorem witness_FinalizationWritesTheDigestOfTheWholeTape :
    ({ five with pc := 1 } : State).phase = .run ∧ ({ five with pc := 1 } : State).pc = five.codeSize ∧
      hostNow { five with pc := 1 } ≠ .reset := by decide

theorem witness_BuffersAreEmptiedAtTheEndOfAnInvocation :
    (∃ t, step { five with pc := 1 } = .next t ∧ t.phase = .done ∧ five.phase ≠ t.phase) ∧
    (∃ t, step (asks .idle typeCmd) = .next t ∧ t.phase = .error ∧ Phase.idle ≠ t.phase) ∧
    (∃ t, step (asks .error typeCmd) = .next t ∧ t.phase = .error ∧ hostNow (asks .error typeCmd) = .start typeCmd) :=
  ⟨⟨_, rfl, rfl, by simp [five, loaded]⟩, ⟨_, rfl, rfl, by decide⟩, ⟨_, rfl, rfl, rfl⟩⟩

theorem witness_ErrorSequenceWritesTheStatusAndEmptiesTheBuffers :
    (∃ t, step (loaded [0x10] [0x000000051]) = .next t ∧ t.phase = .error ∧ five.phase ≠ .error) ∧
    (∃ t, step (asks .error typeCmd) = .next t ∧ t.phase = .error ∧ hostNow (asks .error typeCmd) = .start typeCmd) :=
  ⟨⟨_, rfl, rfl, by decide⟩, ⟨_, rfl, rfl, rfl⟩⟩

theorem witness_DigestIsWrittenOnlyByFinalization :
    (∃ t, step five = .next t) ∧ (∃ t, step (asks .idle goodCmd) = .next t) ∧ ∃ t, step { five with pc := 1 } = .next t :=
  ⟨⟨_, rfl⟩, ⟨_, rfl⟩, ⟨_, rfl⟩⟩

theorem witness_QuiescentPhasesWaitForTheHost :
    (State.reset.phase = .idle ∧ hostNow State.reset ≠ .reset ∧ ∀ cmd, hostNow State.reset ≠ .start cmd) ∧
    ∃ t, (asks .error goodCmd).phase = .error ∧ step (asks .error goodCmd) = .next t ∧ t.phase ≠ .error :=
  ⟨⟨rfl, by decide, fun cmd h => by cases h⟩, _, rfl, rfl, by decide⟩

theorem witness_ResetGivesEveryElementItsResetValue : hostNow { five with host := [.reset] } = .reset := by decide

theorem witness_DigestRegistersAreBigEndianWords : 7 < 8 ∧ 8 < 9 := by decide

theorem reset_inv : Inv cfg State.reset where
  errIff := by decide
  doneIff := by decide
  noDigest := by decide
  buffersEmpty := by decide
  generating := fun h => by cases h
  running := fun h => by cases h
  widths := ⟨by decide, by decide, by decide, by decide⟩
  tapeWf := by decide

theorem invRun_inv : Inv cfg invRun where
  errIff := by simp [invRun, State.reset]
  doneIff := by simp [invRun, State.reset]
  noDigest := fun _ => rfl
  buffersEmpty := fun h => by cases h
  generating := fun h => by cases h
  running := fun _ =>
    ⟨⟨by simp [invRun], by decide, by decide, fun _ => rfl, fun h => by cases h⟩,
      ⟨(Nat.mul_one _).symm, cfg_legal.baseInRange.1, rfl, rfl, Nat.zero_le _,
        fun w hw => by
          have h : w = 0 := by simpa [invRun] using hw
          subst h; exact Nat.two_pow_pos _,
        fun w hw => by
          have h : w = 0 := by simpa [invRun] using hw
          subst h; exact cfg_legal.baseInRange.1⟩⟩
  widths := ⟨by decide, by decide, Nat.le_trans cfg_legal.baseInRange.2 (by decide), by decide⟩
  tapeWf := ⟨List.Pairwise.nil, fun c h => by cases h⟩

theorem witness_EveryStepKeepsTheInvariant :
    (∃ t, Inv cfg State.reset ∧ step State.reset = .next t) ∧ ∃ t, Inv cfg invRun ∧ step invRun = .next t :=
  ⟨⟨_, reset_inv, rfl⟩, by
    rcases exec_cases (.ident 0) invRun with ⟨_, m, h, _⟩ | h
    · exact ⟨_, invRun_inv, h⟩
    · exact ⟨_, invRun_inv, h⟩⟩

theorem witness_InvariantStatesNeverStop : Inv cfg State.reset ∧ Inv cfg invRun := ⟨reset_inv, invRun_inv⟩

/-- The state in `GEN` after `goodCmd`. -/
def goodGen : State :=
  latch ⟨.tapehash1, [], cfg.csDefault .tapehash1, 1⟩ (clearForStart (hostTaken (asks .idle goodCmd)))

theorem witness_ReachableRunStatesMeetTheDataInvariants :
    ∃ t : State, Sys2Proof.core.run 2 (asks .idle goodCmd) = .next t ∧ t.phase = .run := by
  have hv : validate cfg goodCmd = .ok ⟨.tapehash1, [], cfg.csDefault .tapehash1, 1⟩ := rfl
  have h1 : Sys2Proof.core.step (asks .idle goodCmd) = .next goodGen := congrArg Host.Outcome.next (startStep_ok hv)
  have h2 : Sys2Proof.core.step goodGen =
      .next (loadGenerated cfg (seedStream cfg .tapehash1 [] (cfg.csDefault .tapehash1) 1) (hostTaken goodGen)) :=
    congrArg Host.Outcome.next (generationStep_loads (tapeLength_pos cfg_legal (tsm := 1) (by decide)))
  have h : Sys2Proof.core.run 2 (asks .idle goodCmd) =
      .next (loadGenerated cfg (seedStream cfg .tapehash1 [] (cfg.csDefault .tapehash1) 1) (hostTaken goodGen)) := by
    simp only [Host.Core.run, h1, h2]
  exact ⟨_, h, rfl⟩

theorem witness_RunsEndAfterCodeSizePlusThreeSteps :
    (Presents typeCmd (asks .idle typeCmd) ∧ validate cfg typeCmd = .error .typeError) ∧
    Presents goodCmd (asks .done goodCmd) ∧ ∃ l, validate cfg goodCmd = .ok l ∧ 1 ≤ 1 ∧ 1 < l.codeSize + 3 :=
  ⟨⟨asks_presents _ _ (by simp), rfl⟩, asks_presents _ _ (by simp), _, rfl, Nat.le_refl _, by omega⟩

theorem witness_ARunComputesTheHashFunction :
    cfgT.Legal ∧ cfg.Legal ∧ Presents goodCmd (asks .error goodCmd) := ⟨cfgT_legal, cfg_legal, asks_presents _ _ (by simp)⟩

theorem witness_TheOutcomeDependsOnlyOnTheCommand :
    Presents goodCmd (asks .idle goodCmd) ∧ Presents goodCmd { asks .done goodCmd with pc := 7 } :=
  ⟨asks_presents _ _ (by simp), ⟨by simp [asks], rfl, by simp [asks, NoReset]⟩⟩

theorem witness_NothingSurvivesIntoTheNextInvocation :
    (asks .idle goodCmd).phase = .idle ∧ ({ asks .error goodCmd with pc := 7 } : State).phase = .error ∧
    (asks .idle goodCmd).host = .start goodCmd :: [] ∧
    ({ asks .error goodCmd with pc := 7 } : State).host = .start goodCmd :: [] ∧
    ¬ TypeFault goodCmd ∧ ¬ ValueFault goodCmd := ⟨rfl, rfl, rfl, rfl, goodCmd_noFault⟩

end Sys2Proof.Tests
end

section
/-! PROOFS. The statements of the scope: the machine is one of the machines of a configuration. -/

namespace Sys2Proof.Machine

/-- The machine the host runs and the machine of its configuration have the same runs, stops included: they take the
same step in every state. -/
theorem core_run_eq_coreWith_run (n : Nat) (s : State) : Sys2Proof.core.run n s = (coreWith cfg).run n s := by
  induction n generalizing s with
  | zero => rfl
  | succ n ih =>
    have hstep : Sys2Proof.core.step s = (coreWith cfg).step s := step_eq_stepWith s
    simp only [Host.Core.run, hstep]
    cases (coreWith cfg).step s with
    | next u => exact ih u
    | fault r => rfl
    | refused r => rfl

/-- A run of the machine is a run under its own configuration. -/
theorem core_run_iff_runsTo (n : Nat) (s t : State) : Sys2Proof.core.run n s = .next t ↔ RunsTo cfg n s t :=
  iff_of_eq (congrArg (· = Host.Outcome.next t) (core_run_eq_coreWith_run n s))

/-- Settles O48: the model's `exec` is `execWith` of its configuration, so the two machines agree step by step. -/
theorem theMachineIsThatOfALegalConfiguration : Obligations.TheMachineIsThatOfALegalConfiguration :=
  ⟨cfg_legal, step_eq_stepWith, core_run_iff_runsTo⟩

end Sys2Proof.Machine
end

section
/-! PROOFS. The invariant holds at reset and every transition of R181 keeps it (R41, R44, R183): one lemma per
transition, then one case each of what a step can do. -/

namespace Sys2Proof.Machine

section

variable {c : Config} {s t : State}

/-! ### States in a quiescent phase -/

/-- In a quiescent phase the invariant asks for agreeing status elements, empty buffers and the widths. -/
theorem inv_of_quiescent (quiescent : t.phase.quiescent = true) (errIff : t.phase = .error ↔ t.err ≠ .none)
    (doneIff : t.phase = .done ↔ t.dvalid = true) (noDigest : t.dvalid = false → t.digest = zeroDigest)
    (buffers : t.pre = [] ∧ t.tape = Memory.empty ∧ t.prog = []) (widths : WithinWidths t) : Inv c t where
  errIff := errIff
  doneIff := doneIff
  noDigest := noDigest
  buffersEmpty := fun _ => buffers
  generating := fun h => by rw [h] at quiescent; cases quiescent
  running := fun h => by rw [h] at quiescent; cases quiescent
  widths := widths
  tapeWf := by rw [buffers.2.1]; exact empty_wf

/-- The reset state of R45, with any host. -/
theorem inv_reset_withHost (actions : List HostAction) : Inv c { State.reset with host := actions } :=
  inv_of_quiescent rfl (by simp) (by simp) (fun _ => rfl) ⟨rfl, rfl, rfl⟩
    ⟨by simp, by simp, by simp, by simp⟩

theorem ErrKind.cause_ne_none (k : ErrKind) : k.cause ≠ .none := by cases k <;> decide

/-- The error sequence leads into the invariant from every state within the widths (R226). -/
theorem inv_raise (k : ErrKind) (widths : WithinWidths s) : Inv c (raise k s) :=
  inv_of_quiescent rfl (by simpa using k.cause_ne_none) (by simp) (fun _ => rfl) ⟨rfl, rfl, rfl⟩
    ⟨widths.codeSize, widths.tsm, widths.tlen, widths.pc⟩

/-! ### What the transitions keep -/

/-- While an invocation is under way there is neither an error nor a digest (R183). -/
theorem Inv.statusClear (h : Inv c s) (busy : s.phase = .gen ∨ s.phase = .run) :
    s.err = .none ∧ s.dvalid = false := by
  have herror : s.phase ≠ .error := by rcases busy with hp | hp <;> simp [hp]
  have hdone : s.phase ≠ .done := by rcases busy with hp | hp <;> simp [hp]
  exact ⟨not_not.1 (mt h.errIff.2 herror), by simpa using mt h.doneIff.2 hdone⟩

/-- The invariant does not read what the host will do. -/
theorem Inv.withHost (h : Inv c s) (actions : List HostAction) : Inv c { s with host := actions } where
  errIff := h.errIff
  doneIff := h.doneIff
  noDigest := h.noDigest
  buffersEmpty := h.buffersEmpty
  generating := fun hp => by
    obtain ⟨params, buffers⟩ := h.generating hp
    exact ⟨{ params with }, buffers⟩
  running := fun hp => by
    obtain ⟨params, ready⟩ := h.running hp
    exact ⟨{ params with }, { ready with }⟩
  widths := { h.widths with }
  tapeWf := h.tapeWf

theorem inv_hostTaken (h : Inv c s) : Inv c (hostTaken s) := h.withHost s.host.tail

/-- A command that passes validation latches legal parameters (R187, R188). -/
theorem paramsLatched_of_validate (hc : c.Legal) {cmd : Command} {l : Latch} (hl : validate c cmd = .ok l) :
    ParamsLatched c (latch l s) := by
  obtain ⟨_, _, named, codeSize, tsm, tapehash1, tapehash2⟩ := validate_ok hc hl
  exact ⟨named, codeSize, tsm, tapehash1, tapehash2⟩

theorem inv_latch (hc : c.Legal) {cmd : Command} {l : Latch} (hl : validate c cmd = .ok l)
    (widths : WithinWidths s) : Inv c (latch l (clearForStart s)) where
  errIff := by simp
  doneIff := by simp
  noDigest := fun _ => rfl
  buffersEmpty := fun h => by cases h
  generating := fun _ => ⟨paramsLatched_of_validate hc hl, rfl, rfl⟩
  running := fun h => by cases h
  widths :=
    have params := paramsLatched_of_validate (s := s) hc hl
    ⟨params.codeSize.2, params.tsm.2, widths.tlen, widths.pc⟩
  tapeWf := empty_wf

/-- Both ends of an accepted `START` (R186 to R188). -/
theorem inv_startStep (hc : c.Legal) (cmd : Command) (widths : WithinWidths s) : Inv c (startStep c cmd s) := by
  cases hv : validate c cmd with
  | error k => rw [startStep_error hv]; exact inv_raise k { widths with }
  | ok l => rw [startStep_ok hv]; exact inv_latch hc hv widths

/-- A generated word is a word of the machine, and its operand lies on the tape (R173, R175). -/
theorem mem_generateProgram (hc : c.Legal) {cs tsm : Nat} (htsm : ParamInRange tsm) {stream : Bytes} {w : Nat}
    (hw : w ∈ generateProgram c cs tsm stream) :
    w < 2 ^ (c.addrWidth + 4) ∧ (decodeStored c.addrWidth w).operand < tapeLength c tsm := by
  obtain ⟨j, _, rfl⟩ := List.mem_map.1 hw
  refine ⟨(generatedWord c tsm stream j).isLt, ?_⟩
  rw [decodeStored_toNat, decode_generatedWord hc htsm, ofFields_operand]
  exact groupOperand_lt (tapeLength_pos hc htsm) _

/-- What generation leaves is ready to run (R161, R163, R171, R176). -/
theorem runReady_loadGenerated (hc : c.Legal) (htsm : ParamInRange s.tsm) (v : Variant) (pre : Bytes) :
    RunReady c (loadGenerated c (seedStream c v pre s.codeSize s.tsm) s) where
  tapeLength := rfl
  positive := tapeLength_pos hc htsm
  tape := by simp
  program := by simp
  counter := Nat.zero_le _
  words := fun _ hw => (mem_generateProgram hc htsm hw).1
  operands := fun _ hw => (mem_generateProgram hc htsm hw).2

theorem inv_loadGenerated (hc : c.Legal) (h : Inv c s) (hp : s.phase = .gen) :
    Inv c (loadGenerated c (seedStream c s.variant s.pre s.codeSize s.tsm) s) := by
  obtain ⟨params, _⟩ := h.generating hp
  obtain ⟨herr, hdvalid⟩ := h.statusClear (.inl hp)
  exact {
    errIff := by simp [herr]
    doneIff := by simp [hdvalid]
    noDigest := h.noDigest
    buffersEmpty := fun q => by cases q
    generating := fun hg => by cases hg
    running := fun _ => ⟨{ params with }, runReady_loadGenerated hc params.tsm s.variant s.pre⟩
    widths := ⟨h.widths.codeSize, h.widths.tsm, tapeLength_le hc params.tsm, Nat.zero_le _⟩
    tapeWf := memOfBytes_wf _ }

/-- Both ends of the generation step (R190). -/
theorem inv_generationStep (hc : c.Legal) (h : Inv c s) (hp : s.phase = .gen) : Inv c (generationStep c s) := by
  rcases generationStep_cases c s with ⟨_, he⟩ | ⟨_, he⟩
  · rw [he]; exact inv_raise .valueError h.widths
  · rw [he]; exact inv_loadGenerated hc h hp

/-- A completed instruction needs a word left to run, and a tape of the same length in canonical form (R195, R196). -/
theorem inv_completeInstruction (h : Inv c s) (hp : s.phase = .run) (hpc : s.pc < s.codeSize) {m : Memory}
    (hlen : m.len = s.tape.len) (hwf : m.wf) : Inv c (completeInstruction m s) := by
  obtain ⟨params, ready⟩ := h.running hp
  exact {
    errIff := h.errIff
    doneIff := h.doneIff
    noDigest := h.noDigest
    buffersEmpty := fun q => by simp [hp, Phase.quiescent] at q
    generating := fun hg => by simp [hp] at hg
    running := fun _ => ⟨{ params with }, { ready with tape := hlen.trans ready.tape, counter := hpc }⟩
    widths := { h.widths with pc := Nat.le_trans hpc h.widths.codeSize }
    tapeWf := hwf }

/-- Both ends of an instruction (R195, R224). -/
theorem inv_of_exec_eq_next {i : Instr} (h : Inv c s) (hp : s.phase = .run) (hpc : s.pc < s.codeSize)
    (he : exec i s = .next t) : Inv c t := by
  rcases exec_eq_next he with ⟨_, m, rfl, hlen, hwf⟩ | rfl
  · exact inv_completeInstruction h hp hpc hlen (hwf h.tapeWf)
  · exact inv_raise .valueError h.widths

theorem inv_finalizationStep (h : Inv c s) (hp : s.phase = .run) : Inv c (finalizationStep c s) := by
  obtain ⟨herr, _⟩ := h.statusClear (.inr hp)
  exact inv_of_quiescent rfl (by simp [herr]) (by simp) (by simp) ⟨rfl, rfl, rfl⟩ { h.widths with }

end

/-! ### At reset and at every step -/

/-- Settles O41: reset is a quiescent state whose elements agree, and the invariant reads nothing of the host. -/
theorem invariantHoldsAtReset : Obligations.InvariantHoldsAtReset := inv_reset_withHost

/-- Settles O42: each transition a step can be keeps the invariant. -/
theorem everyStepKeepsTheInvariant : Obligations.EveryStepKeepsTheInvariant := by
  intro s t h hstep
  have taken := inv_hostTaken h
  rcases step_cases hstep with
    ⟨_, rfl⟩ | ⟨_, _, cmd, _, rfl⟩ | ⟨_, _, _, rfl⟩ | ⟨_, hp, rfl⟩ | ⟨_, hp, hpc, w, _, he⟩ | ⟨_, hp, _, rfl⟩
  · exact inv_reset_withHost _
  · exact inv_startStep cfg_legal cmd taken.widths
  · exact taken
  · exact inv_generationStep cfg_legal taken hp
  · exact inv_of_exec_eq_next taken hp hpc he
  · exact inv_finalizationStep taken hp

end Sys2Proof.Machine
end

section
/-! PROOFS. The steps that end an invocation (R44, R197, R226). -/

namespace Sys2Proof.Machine

/-- The error sequence writes whatever the start of a command has cleared. -/
@[simp] theorem raise_clearForStart (k : ErrKind) (s : State) : raise k (clearForStart s) = raise k s := rfl

/-- A step that arrives in `DONE` or `ERROR` without idling there is the error sequence or the finalization. -/
theorem step_ends_cases {s t : State} (h : step s = .next t) (hend : t.phase = .done ∨ t.phase = .error)
    (hnew : s.phase ≠ t.phase ∨ ∃ cmd, hostNow s = .start cmd) :
    (∃ k, t = raise k (hostTaken s)) ∨ t = finalizationStep cfg (hostTaken s) := by
  rcases step_cases h with
    ⟨_, rfl⟩ | ⟨_, _, cmd, _, rfl⟩ | ⟨_, _, hno, rfl⟩ | ⟨_, _, rfl⟩ | ⟨_, hp, _, w, _, he⟩ | ⟨_, _, _, rfl⟩
  · simp at hend
  · cases hv : validate cfg cmd with
    | error k => rw [startStep_error hv]; exact .inl ⟨k, rfl⟩
    | ok l => simp [startStep_ok hv] at hend
  · simp [hno] at hnew
  · rcases generationStep_cases cfg (hostTaken s) with ⟨_, he⟩ | ⟨_, he⟩
    · rw [he]; exact .inl ⟨_, rfl⟩
    · simp [he] at hend
  · rcases exec_eq_next he with ⟨_, m, rfl, _⟩ | rfl
    · simp [hp] at hend
    · exact .inl ⟨_, rfl⟩
  · exact .inr rfl

/-- Settles O34: the error sequence and the finalization both empty the buffers and keep the counters. -/
theorem buffersAreEmptiedAtTheEndOfAnInvocation : Obligations.BuffersAreEmptiedAtTheEndOfAnInvocation := by
  intro s t h hend hnew
  rcases step_ends_cases h hend hnew with ⟨k, rfl⟩ | rfl
  · simp
  · simp

end Sys2Proof.Machine
end

section
/-! PROOFS. What the host reads: the fields of `STATUS` and the digest words, and that its writes are ignored
(R36 to R38). -/

namespace Sys2Proof.Machine

/-- A host write to any register passes as a step without host action (R36, R37). -/
theorem step_write_eq_step_nothing (s : State) (r : Nat) (v : RegWord) (rest : List HostAction) :
    step { s with host := .write r v :: rest } = step { s with host := .nothing :: rest } := rfl

/-! ### `STATUS` -/

/-- `STATUS` as the sum of its fields at their places (R36). -/
theorem statusWord_toNat (s : State) :
    (statusWord s).toNat = s.dvalid.toNat * 32 + s.err.code.toNat * 8 + s.phase.code.toNat := by
  have herr := s.err.code.isLt
  have hphase := s.phase.code.isLt
  simp only [statusWord, BitVec.toNat_append, BitVec.toNat_ofNat, Nat.zero_mod, Nat.zero_shiftLeft, Nat.zero_or,
    BitVec.toNat_ofBool]
  rw [← Nat.shiftLeft_add_eq_or_of_lt herr, ← Nat.shiftLeft_add_eq_or_of_lt hphase, Nat.shiftLeft_eq,
    Nat.shiftLeft_eq]
  omega

theorem statusWord_phaseField (s : State) : (statusWord s).toNat % 8 = s.phase.code.toNat := by
  have := s.phase.code.isLt
  rw [statusWord_toNat]; omega

theorem statusWord_errField (s : State) : (statusWord s).toNat / 8 % 4 = s.err.code.toNat := by
  have := s.phase.code.isLt
  have := s.err.code.isLt
  rw [statusWord_toNat]; omega

theorem statusWord_dvalidField (s : State) : (statusWord s).toNat / 32 = s.dvalid.toNat := by
  have := s.phase.code.isLt
  have := s.err.code.isLt
  rw [statusWord_toNat]; omega

theorem busyOut_iff (s : State) : busyOut s = true ↔ s.phase = .gen ∨ s.phase = .run := by simp [busyOut]

theorem doneOut_iff (s : State) : doneOut s = true ↔ s.phase = .done := by simp [doneOut]

theorem errOut_iff (s : State) : errOut s = true ↔ s.phase = .error := by simp [errOut]

/-- Settles O39: each field of `STATUS` is the code of its status element, by the value of the whole word. -/
theorem statusRegisterHasItsFields : Obligations.StatusRegisterHasItsFields := by
  refine ⟨fun s => ⟨statusWord s, rfl, ?_, ?_, ?_, ?_, busyOut_iff s, doneOut_iff s, errOut_iff s⟩,
    step_write_eq_step_nothing⟩
  · rw [statusWord_phaseField]; cases s.phase <;> rfl
  · rw [statusWord_errField]; cases s.err <;> rfl
  · rw [statusWord_dvalidField]; cases s.dvalid <;> rfl
  · have hfield := statusWord_dvalidField s
    have := s.dvalid.toNat_lt
    omega

/-! ### The digest registers -/

/-- Four bytes in the order of R12. -/
theorem be_four (b0 b1 b2 b3 : Byte) :
    be [b0, b1, b2, b3] = b0.toNat * 2 ^ 24 + b1.toNat * 2 ^ 16 + b2.toNat * 2 ^ 8 + b3.toNat := by
  simp only [be, List.foldl_cons, List.foldl_nil]; omega

theorem take_four_drop {α : Type} {l : List α} {i : Nat} (h : i + 3 < l.length) :
    (l.drop i).take 4 = [l[i], l[i + 1], l[i + 2], l[i + 3]] := by
  rw [List.drop_eq_getElem_cons (by omega), List.drop_eq_getElem_cons (by omega),
    List.drop_eq_getElem_cons (by omega), List.drop_eq_getElem_cons (by omega)]
  rfl

/-- A digest register is the four bytes of the digest it stands for, the first most significant (R37). -/
theorem digestWord_toNat (s : State) {k : Nat} {b0 b1 b2 b3 : Byte}
    (h : (s.digest.toList.drop (4 * k)).take 4 = [b0, b1, b2, b3]) :
    (digestWord s k).toNat = b0.toNat * 2 ^ 24 + b1.toNat * 2 ^ 16 + b2.toNat * 2 ^ 8 + b3.toNat := by
  have := b0.isLt
  have := b1.isLt
  have := b2.isLt
  have := b3.isLt
  rw [digestWord, h, be_four, BitVec.toNat_ofNat]
  exact Nat.mod_eq_of_lt (by omega)

theorem hostRead_digest (s : State) {k : Nat} (h : k < 8) : hostRead s (1 + k) = some (digestWord s k) := by
  rw [hostRead, if_neg (by omega), if_pos (by omega), Nat.add_sub_cancel_left]

theorem hostRead_none (s : State) {r : Nat} (h : 8 < r) : hostRead s r = none := by
  rw [hostRead, if_neg (by omega), if_neg (by omega)]

/-- Settles O40: the digest has 32 bytes, so each of the eight registers has its four. -/
theorem digestRegistersAreBigEndianWords : Obligations.DigestRegistersAreBigEndianWords := by
  refine ⟨fun s k hk => ?_, fun s r hr => hostRead_none s hr, fun s k => step_write_eq_step_nothing s (1 + k),
    by decide⟩
  have hlen : s.digest.toList.length = 32 := s.digest.length_toList
  exact ⟨digestWord s k, _, _, _, _, hostRead_digest s hk,
    List.getElem?_eq_getElem (by omega), List.getElem?_eq_getElem (by omega),
    List.getElem?_eq_getElem (by omega), List.getElem?_eq_getElem (by omega),
    digestWord_toNat s (take_four_drop (by omega))⟩

end Sys2Proof.Machine
end

section
/-! PROOFS. The run of one command, for every legal configuration: what the state holds in each phase of it, one
lemma per step of it, its length and its end (R197, R198, R200), and R42 as a corollary. -/

namespace Sys2Proof.Machine

section

variable {c : Config} {cmd : Command} {l : Latch} {s : State}

/-! ### The phases of a run -/

/-- The seed stream of a latched command (R151, R153). -/
def Latch.stream (c : Config) (l : Latch) : Bytes := seedStream c l.variant l.pre l.codeSize l.tsm

/-- A state in `GEN` that holds the latched command and no error. -/
structure GenState (l : Latch) (s : State) : Prop where
  phase : s.phase = .gen
  err : s.err = .none
  variant : s.variant = l.variant
  pre : s.pre = l.pre
  codeSize : s.codeSize = l.codeSize
  tsm : s.tsm = l.tsm
  noReset : NoReset s.host

/-- A state in `RUN` after `j` instructions of the latched command: its tape is `T_j` of R200. -/
structure RunState (c : Config) (l : Latch) (j : Nat) (s : State) : Prop where
  phase : s.phase = .run
  err : s.err = .none
  codeSize : s.codeSize = l.codeSize
  tlen : s.tlen = tapeLength c l.tsm
  pc : s.pc = j
  prog : s.prog = generateProgram c l.codeSize l.tsm (l.stream c)
  length : s.tape.len = tapeLength c l.tsm
  bytes : memBytes s.tape = tapeAfter c l.tsm (l.stream c) j
  noReset : NoReset s.host

/-! ### The steps of a run -/

/-- A command that fails validation ends its run in its first step (R186). -/
theorem stepWith_start_error {k : ErrKind} (h : Presents cmd s) (hv : validate c cmd = .error k) :
    stepWith c s = .next (raise k (hostTaken s)) := by
  rw [stepWith, sequencer_start h.command (quiescent_of h.quiescent), startStep_error hv]; rfl

/-- A command that passes validation begins its run (R188). -/
theorem stepWith_start_ok (h : Presents cmd s) (hv : validate c cmd = .ok l) :
    ∃ t, stepWith c s = .next t ∧ GenState l t := by
  refine ⟨latch l (clearForStart (hostTaken s)), ?_, rfl, rfl, rfl, rfl, rfl, rfl, noReset_hostTaken h.noReset⟩
  rw [stepWith, sequencer_start h.command (quiescent_of h.quiescent), startStep_ok hv]

/-- Without a reset a busy step is the sequencer's own (R185). -/
theorem stepWith_busy (c : Config) (hr : NoReset s.host) (hbusy : s.phase = .gen ∨ s.phase = .run) :
    stepWith c s = advance c (execWith c) (hostTaken s) :=
  sequencer_busy (hostNow_ne_reset hr) (not_quiescent_of hbusy)

/-- The generation step of a run (R190). -/
theorem GenState.loads (hc : c.Legal) (htsm : ParamInRange l.tsm) (h : GenState l s) :
    ∃ t, stepWith c s = .next t ∧ RunState c l 0 t := by
  have hpos : 0 < tapeLength c (hostTaken s).tsm := by simpa [h.tsm] using tapeLength_pos hc htsm
  have hstream : seedStream c s.variant s.pre s.codeSize s.tsm = l.stream c := by
    rw [h.variant, h.pre, h.codeSize, h.tsm]; rfl
  refine ⟨loadGenerated c (l.stream c) (hostTaken s), ?_, ?_⟩
  · rw [stepWith_busy c h.noReset (.inl h.phase), advance_gen (by simpa using h.phase), generationStep_loads hpos]
    simp [hstream]
  · exact {
      phase := rfl
      err := h.err
      codeSize := h.codeSize
      tlen := by simp [h.tsm]
      pc := rfl
      prog := by simp [h.codeSize, h.tsm]
      length := by simp [h.tsm, Latch.stream]
      bytes := by simp [h.tsm, memBytes_memOfBytes, tapeAfter]
      noReset := noReset_hostTaken h.noReset }

/-- The transform of a decoded word is the table's entry for its opcode, whatever its operand (R113). -/
theorem byteTransform_ofFields (c : Config) (k : BitVec 4) (a : Nat) :
    byteTransform c (Instr.ofFields k a) = tableEntry c k := by
  unfold tableEntry Instr.ofFields
  split <;> rfl

/-- A generated word executes as the instruction of its group of the stream (R172, R173, R192). -/
theorem execWith_decodeStored_generatedWord (hc : c.Legal) {tsm : Nat} (htsm : ParamInRange tsm) (stream : Bytes)
    (j : Nat) (s : State) :
    execWith c (decodeStored c.addrWidth (generatedWord c tsm stream j).toNat) s =
      instructionStep c (groupOpcode (streamGroup c tsm stream j))
        (tableEntry c (BitVec.ofNat 4 (groupOpcode (streamGroup c tsm stream j))))
        (groupOperand (tapeLength c tsm) (streamGroup c tsm stream j)) s := by
  rw [decodeStored_toNat, decode_generatedWord hc htsm, execWith, byteTransform_ofFields, ofFields_opcode,
    ofFields_operand, BitVec.toNat_ofNat, Nat.mod_eq_of_lt (groupOpcode_lt _)]

/-- Word `PC` of a generated program, executed on `T_PC` of R200, completes with `T_(PC+1)`. -/
theorem execWith_generatedWord (hc : c.Legal) {tsm : Nat} (htsm : ParamInRange tsm) (stream : Bytes)
    (htlen : s.tlen = tapeLength c tsm) (hlen : s.tape.len = tapeLength c tsm)
    (hbytes : memBytes s.tape = tapeAfter c tsm stream s.pc) :
    ∃ m, execWith c (decodeStored c.addrWidth (generatedWord c tsm stream s.pc).toNat) s =
        .next (completeInstruction m s) ∧
      m.len = tapeLength c tsm ∧ memBytes m = tapeAfter c tsm stream (s.pc + 1) := by
  have hoperand := groupOperand_lt (tapeLength_pos hc htsm) (streamGroup c tsm stream s.pc)
  obtain ⟨n, hamount, hn⟩ := indexInBounds_nat
    (hc.rotInRange s.pc (groupOpcode (streamGroup c tsm stream s.pc)) _ _ hoperand)
  have hscheduled : scheduledAmount c tsm stream s.pc = n := hamount
  have hoperand' := hoperand.trans_eq hlen.symm
  have hn' := hn.trans_eq hlen.symm
  rw [execWith_decodeStored_generatedWord hc htsm]
  refine ⟨_, instructionStep_completes c _ _ hoperand' hn' (by rw [htlen]; exact hamount), ?_, ?_⟩
  · rw [steppedTape_len, hlen]
  · rw [memBytes_steppedTape _ hoperand' hn', hbytes, tapeAfter, hscheduled, Int.toNat_natCast]; rfl

/-- One instruction of a run (R195). -/
theorem RunState.executes (hc : c.Legal) (htsm : ParamInRange l.tsm) {j : Nat} (h : RunState c l j s)
    (hj : j < l.codeSize) : ∃ t, stepWith c s = .next t ∧ RunState c l (j + 1) t := by
  obtain rfl := h.pc
  have hpc : (hostTaken s).pc < (hostTaken s).codeSize := hj.trans_eq h.codeSize.symm
  have hword : (hostTaken s).prog[(hostTaken s).pc]? = some (generatedWord c l.tsm (l.stream c) s.pc).toNat := by
    simp only [hostTaken_prog, hostTaken_pc, h.prog, generateProgram_getElem? c l.tsm (l.stream c) hj]
  obtain ⟨m, hexec, hlen, hbytes⟩ :=
    execWith_generatedWord (s := hostTaken s) hc htsm (l.stream c) h.tlen h.length h.bytes
  refine ⟨completeInstruction m (hostTaken s), ?_, ?_⟩
  · rw [stepWith_busy c h.noReset (.inr h.phase), advance_instruction (by simpa using h.phase) hpc hword]
    exact hexec
  · exact { h with pc := rfl, length := hlen, bytes := hbytes, noReset := noReset_hostTaken h.noReset }

/-- After its last instruction a run ends in `DONE` with the digest of its tape (R197, R212). -/
theorem RunState.finalizes (h : RunState c l l.codeSize s) :
    ∃ t, stepWith c s = .next t ∧
      EndsAs (.digest (c.finalize (tapeAfter c l.tsm (l.stream c) l.codeSize))) t := by
  have hpc : (hostTaken s).pc = (hostTaken s).codeSize := h.pc.trans h.codeSize.symm
  refine ⟨finalizationStep c (hostTaken s), ?_, rfl, h.err, rfl, congrArg c.finalize h.bytes⟩
  rw [stepWith_busy c h.noReset (.inr h.phase), advance_finalization (by simpa using h.phase) hpc]

/-! ### The whole run -/

/-- The number of steps from the presented command to the end of its run (R198). -/
def runLength (c : Config) (cmd : Command) : Nat :=
  match validate c cmd with
  | .error _ => 1
  | .ok l => l.codeSize + 3

theorem runLength_error {k : ErrKind} (hv : validate c cmd = .error k) : runLength c cmd = 1 := by
  simp [runLength, hv]

theorem runLength_ok (hv : validate c cmd = .ok l) : runLength c cmd = l.codeSize + 3 := by
  simp [runLength, hv]

theorem runLength_pos (c : Config) (cmd : Command) : 1 ≤ runLength c cmd := by
  cases hv : validate c cmd with
  | error k => rw [runLength_error hv]
  | ok l => rw [runLength_ok hv]; omega

theorem runsTo_one {t : State} (h : stepWith c s = .next t) : RunsTo c 1 s t := runsTo_cons h rfl

/-- START, generation and `j` instructions. -/
theorem runsTo_runState (hc : c.Legal) (h : Presents cmd s) (hv : validate c cmd = .ok l) :
    ∀ j, j ≤ l.codeSize → ∃ t, RunsTo c (j + 2) s t ∧ RunState c l j t := by
  obtain ⟨_, _, _, _, htsm, _⟩ := validate_ok hc hv
  intro j
  induction j with
  | zero =>
    intro _
    obtain ⟨u, hu, hgen⟩ := stepWith_start_ok h hv
    obtain ⟨t, ht, hrun⟩ := hgen.loads hc htsm
    exact ⟨t, runsTo_snoc (runsTo_one hu) ht, hrun⟩
  | succ j ih =>
    intro hj
    obtain ⟨u, hu, hrun⟩ := ih (Nat.le_of_lt hj)
    obtain ⟨t, ht, hnext⟩ := hrun.executes hc htsm hj
    exact ⟨t, runsTo_snoc hu ht, hnext⟩

/-- The end of a run of a command that fails validation (R186). -/
theorem endsAs_raise {k : ErrKind} (hv : validate c cmd = .error k) :
    EndsAs (hashFunction c cmd) (raise k s) := by
  cases k <;> simp [hashFunction, hv, EndsAs, ErrKind.cause]

/-- A run ends after `runLength` steps with the value of `H` (R198, R200). -/
theorem runsTo_end (hc : c.Legal) (h : Presents cmd s) :
    ∃ t, RunsTo c (runLength c cmd) s t ∧ EndsAs (hashFunction c cmd) t := by
  cases hv : validate c cmd with
  | error k => rw [runLength_error hv]; exact ⟨_, runsTo_one (stepWith_start_error h hv), endsAs_raise hv⟩
  | ok l =>
    rw [runLength_ok hv]
    obtain ⟨u, hu, hrun⟩ := runsTo_runState hc h hv l.codeSize (Nat.le_refl _)
    obtain ⟨t, ht, hend⟩ := hrun.finalizes
    exact ⟨t, runsTo_snoc hu ht, by rw [hashFunction_ok hc hv]; exact hend⟩

/-- Before its end a run is in `GEN` or `RUN` (R197). -/
theorem runsTo_busy (hc : c.Legal) (h : Presents cmd s) {m : Nat} (hm : 1 ≤ m) (hlt : m < runLength c cmd) :
    ∃ u, RunsTo c m s u ∧ (u.phase = .gen ∨ u.phase = .run) := by
  cases hv : validate c cmd with
  | error k => rw [runLength_error hv] at hlt; omega
  | ok l =>
    rw [runLength_ok hv] at hlt
    match m, hm with
    | 1, _ =>
      obtain ⟨u, hu, hgen⟩ := stepWith_start_ok h hv
      exact ⟨u, runsTo_one hu, .inl hgen.phase⟩
    | j + 2, _ =>
      obtain ⟨u, hu, hrun⟩ := runsTo_runState hc h hv j (by omega)
      exact ⟨u, hu, .inr hrun.phase⟩

/-! ### R42 -/

theorem EndsAs.phase {r : HashResult} {t : State} (h : EndsAs r t) : t.phase = .done ∨ t.phase = .error := by
  cases r with
  | typeError => exact .inr h.1
  | valueError => exact .inr h.1
  | digest d => exact .inl h.1

/-- The value of `H` determines the outcome of a run. -/
theorem EndsAs.outcome_eq {r : HashResult} {t t' : State} (h : EndsAs r t) (h' : EndsAs r t') :
    t.phase = t'.phase ∧ t.err = t'.err ∧ t.dvalid = t'.dvalid ∧ t.digest = t'.digest := by
  cases r <;> simp_all [EndsAs]

end

/-- Settles O49: both runs have the length and the end that the command alone determines. -/
theorem theOutcomeDependsOnlyOnTheCommand : Obligations.TheOutcomeDependsOnlyOnTheCommand := by
  intro cmd s s' h h'
  obtain ⟨t, ht, hend⟩ := runsTo_end cfg_legal h
  obtain ⟨t', ht', hend'⟩ := runsTo_end cfg_legal h'
  obtain ⟨hphase, herr, hdvalid, hdigest⟩ := hend.outcome_eq hend'
  refine ⟨runLength cfg cmd, t, t', runLength_pos cfg cmd, (core_run_iff_runsTo _ _ _).2 ht,
    (core_run_iff_runsTo _ _ _).2 ht', hend.phase, hphase, herr, hdvalid, hdigest, fun m hm hlt => ?_⟩
  obtain ⟨u, hu, hbusy⟩ := runsTo_busy cfg_legal h hm hlt
  obtain ⟨u', hu', hbusy'⟩ := runsTo_busy cfg_legal h' hm hlt
  exact ⟨u, u', (core_run_iff_runsTo _ _ _).2 hu, hbusy, (core_run_iff_runsTo _ _ _).2 hu', hbusy'⟩

end Sys2Proof.Machine
end

section
/-! PROOFS. Encoder and decoder are inverse to each other, and both agree with the opcode table (30_encoding.md
sections 1 and 6). -/

namespace Sys2Proof

/-! ### The fields of a decoded word -/

section

variable {n : Nat}

@[simp] theorem Instr.wellFormed_iff {i : Instr} : i.wellFormed n = true ↔ i.operand < 2 ^ n := by simp [Instr.wellFormed]

@[simp] theorem decode_opcode (w : InstrWord n) : (decode n w).opcode = w.toNat % 16 := by simp [decode]

@[simp] theorem decode_operand (w : InstrWord n) : (decode n w).operand = w.toNat / 16 := by
  rw [decode, ofFields_operand, operandField_toNat]

theorem decode_wellFormed (w : InstrWord n) : (decode n w).wellFormed n = true := by
  rw [Instr.wellFormed_iff, decode_operand, ← operandField_toNat]
  exact (operandField n w).isLt

/-! ### R92 -/

theorem encode_toNat {i : Instr} (h : i.wellFormed n = true) : (encode n i).toNat = i.operand * 16 + i.opcode :=
  pairWord_toNat (opcode_lt i) (Instr.wellFormed_iff.1 h)

theorem decode_encode {i : Instr} (h : i.wellFormed n = true) : decode n (encode n i) = i := by
  rw [encode, decode_pairWord (opcode_lt i) (Instr.wellFormed_iff.1 h), ofFields_self]

theorem encode_decode (w : InstrWord n) : encode n (decode n w) = w := by
  apply BitVec.eq_of_toNat_eq
  rw [encode_toNat (decode_wellFormed w), decode_opcode, decode_operand]
  exact Nat.div_add_mod' w.toNat 16

/-- A pair in range has the encoding `a * 16 + k`, and its word decodes to the pair. -/
theorem encodePair_inRange {k a : Int} (hk : 0 ≤ k) (hk' : k < 16) (ha : 0 ≤ a) (ha' : a < 2 ^ n) :
    ∃ w, encodePair n k a = some w ∧ (w.toNat : Int) = a * 16 + k ∧
      ((decode n w).opcode : Int) = k ∧ ((decode n w).operand : Int) = a := by
  lift k to Nat using hk
  lift a to Nat using ha
  have hlt : k < 16 := by exact_mod_cast hk'
  have hword : (pairWord n k a).toNat = a * 16 + k := pairWord_toNat hlt (by exact_mod_cast ha')
  refine ⟨pairWord n k a, by simp [encodePair, hk', ha'], by simp [hword], ?_, ?_⟩
  · rw [decode_opcode, hword]; omega
  · rw [decode_operand, hword]; omega

theorem encodePair_outOfRange {k a : Int} (h : ¬ (0 ≤ k ∧ k < 16 ∧ 0 ≤ a ∧ a < 2 ^ n)) : encodePair n k a = none :=
  if_neg h

/-! ### Numbers (R90) -/

theorem decodeNumber_of_lt {w : Nat} (h : w < 2 ^ (n + 4)) :
    decodeNumber n w = .ok (decode n (BitVec.ofNat (n + 4) w)) := if_pos h

theorem decodeNumber_of_ge {w : Nat} (h : 2 ^ (n + 4) ≤ w) : decodeNumber n w = .error .widerThanAWord :=
  if_neg (Nat.not_lt.2 h)

/-! ### The opcode table (R99) -/

theorem encodesInItsRow : ∀ i, Laws.EncodesInItsRow.Statement i
  | .ident a => Laws.EncodesInItsRow.ident a
  | .dbl a => Laws.EncodesInItsRow.dbl a
  | .half a => Laws.EncodesInItsRow.half a
  | .op3 a => Laws.EncodesInItsRow.op3 a
  | .inc a => Laws.EncodesInItsRow.inc a
  | .dec a => Laws.EncodesInItsRow.dec a
  | .op6 a => Laws.EncodesInItsRow.op6 a
  | .quad a => Laws.EncodesInItsRow.quad a
  | .op8 a => Laws.EncodesInItsRow.op8 a
  | .nswap a => Laws.EncodesInItsRow.nswap a
  | .op10 a => Laws.EncodesInItsRow.op10 a
  | .op11 a => Laws.EncodesInItsRow.op11 a
  | .op12 a => Laws.EncodesInItsRow.op12 a
  | .op13 a => Laws.EncodesInItsRow.op13 a
  | .op14 a => Laws.EncodesInItsRow.op14 a
  | .op15 a => Laws.EncodesInItsRow.op15 a

/-- Every row looks at the four opcode bits alone. -/
theorem opcodeTable_mask : ∀ r ∈ opcodeTable, r.mask = 0xF ∧ r.pattern < 16 := by decide

theorem opcodeTable_pattern_injective : ∀ r ∈ opcodeTable, ∀ r' ∈ opcodeTable, r.pattern = r'.pattern → r = r' := by
  decide

/-- A row that matches a word has the word's opcode bits as its pattern. -/
theorem pattern_eq_of_matches {r : TableRow} (hr : r ∈ opcodeTable) {w : InstrWord n} (h : r.Matches w) :
    r.pattern = (w &&& BitVec.ofNat (n + 4) 0xF).toNat := by
  obtain ⟨hmask, hpattern⟩ := opcodeTable_mask r hr
  have hword : 16 ≤ 2 ^ (n + 4) := Nat.pow_le_pow_right (n := 2) (by decide) (Nat.le_add_left 4 n)
  rw [← hmask, h, BitVec.toNat_ofNat, Nat.mod_eq_of_lt (hpattern.trans_le hword)]

end

/-- Settles O4: the row of the decoded instruction matches, and a row that matches has the word's opcode bits as its
pattern, which differ from row to row. -/
theorem exactlyOneTableRowMatchesAWord : Obligations.ExactlyOneTableRowMatchesAWord := by
  intro n w
  obtain ⟨r, hrow, hmnemonic, hmatches⟩ := encodesInItsRow (decode n w)
  have hr : r ∈ opcodeTable := List.mem_of_getElem? hrow
  have hw : r.Matches w := encode_decode w ▸ hmatches n
  refine ⟨r, hr, hw, hmnemonic, fun r' hr' hw' => ?_⟩
  exact opcodeTable_pattern_injective r' hr' r hr
    ((pattern_eq_of_matches hr' hw').trans (pattern_eq_of_matches hr hw).symm)

end Sys2Proof

namespace Sys2Proof.Machine

/-- An operand outside the tape makes every instruction raise, whatever its opcode (R91, R111). -/
theorem exec_operandOutOfBounds {i : Instr} {s : State} (h : s.tape.len ≤ i.operand) :
    exec i s = .next (raise .valueError s) := by
  rw [exec_eq_execWith, execWith, instructionStep_operandOutOfBounds _ _ _ h]

/-- At the contract boundary an opcode or an operand outside the range of a word is a value error (R92, R111), where the
operand field holds every index of the tape. -/
theorem executeOpcodePort_outOfRange {n : Nat} {k a : Int} (h : ¬ (0 ≤ k ∧ k < 16 ∧ 0 ≤ a ∧ a < 2 ^ n)) (c : Config)
    {t : Bytes} (ht : t.length ≤ 2 ^ n) :
    executeOpcodePort c (.int k) (.int a) (.mutbytes t) = .error .valueError := by
  by_cases hk : 0 ≤ k ∧ k < 16
  · have hindex : ¬ IndexInBounds a (memOfBytes t).len := by
      rintro ⟨ha, hlt⟩
      rw [memOfBytes_len] at hlt
      exact h ⟨hk.1, hk.2, ha, hlt.trans_le (by exact_mod_cast ht)⟩
    simp [executeOpcodePort, HV.asInt, HV.asMutbytes, hk, applyTransform_outOfBounds _ hindex, Except.map]
  · simp only [executeOpcodePort, HV.asInt, HV.asMutbytes, hk, if_false]

/-- Settles O3, one lemma for each direction of the round trip and for each kind of pair. -/
theorem encodeAndDecodeAreInverse : Obligations.EncodeAndDecodeAreInverse := fun _ =>
  ⟨fun _ => decode_encode, fun w => ⟨decode_wellFormed w, encode_decode w⟩, fun _ _ => encodePair_inRange,
    fun _ _ h => ⟨encodePair_outOfRange h, fun c _ => executeOpcodePort_outOfRange h c⟩⟩

/-- Settles O2: a number below `2^(n+4)` is its word's value, whose fields the decoder reads. -/
theorem everyWordDecodesToItsTwoFields : Obligations.EveryWordDecodesToItsTwoFields := by
  intro n w hw
  have hvalue : (BitVec.ofNat (n + 4) w).toNat = w := by rw [BitVec.toNat_ofNat, Nat.mod_eq_of_lt hw]
  have hoperand : (decode n (BitVec.ofNat (n + 4) w)).operand = w / 16 := by rw [decode_operand, hvalue]
  refine ⟨_, decodeNumber_of_lt hw, rfl, by rw [decode_opcode, hvalue], hoperand, fun s hs => ?_⟩
  exact exec_operandOutOfBounds (hs.trans_eq hoperand.symm)

/-- Settles O1: each word evaluates, and the refusal holds of every number of more than 36 bits. -/
theorem sampleWordsDecodeToTheirInstructions : Obligations.SampleWordsDecodeToTheirInstructions :=
  ⟨rfl, rfl, rfl, rfl, rfl, rfl, rfl, rfl, rfl, rfl, rfl, rfl, rfl, rfl, rfl, rfl, fun _ => decodeNumber_of_ge⟩

end Sys2Proof.Machine
end

section
/-! PROOFS. Assembler text is read back, line by line and program by program (30_encoding.md section 5). -/

namespace Sys2Proof.Machine

section

variable {n : Nat} {i : Instr} {line : List Char}

/-! ### Lines -/

/-- A written instruction is read as itself where it has an encoding, and as the error of its operand where it has none
(R92, R98). -/
theorem parseLine_writesInstr (n : Nat) (h : WritesInstr i line) :
    parseLine n line = if i.wellFormed n then .ok (some i) else .error .operandTooLarge := by
  obtain ⟨t, ht, hwords⟩ := lineWords_of_writesInstr h
  obtain ⟨-, -, k, hk, hi⟩ := mnemonic_facts i
  simp only [parseLine, hwords, hk, parseOperand_written ht, hi]

theorem lineWords_of_writesNothing (h : WritesNothing line) : lineWords line = [] := by
  obtain ⟨b, hb, hline⟩ := h
  rw [lineWords_eq, takeWhile_withComment (fun ch hc => (hb.isBlank ch hc).2) hline,
    blankSeparated_blanks fun ch hc => (hb.isBlank ch hc).1]

theorem parseLine_writesNothing (n : Nat) (h : WritesNothing line) : parseLine n line = .ok none := by
  simp only [parseLine, lineWords_of_writesNothing h]

/-! ### The model's own print -/

/-- The printed digits are written digits. -/
theorem hexDigits_forall₂ (k a : Nat) : ∃ digits : List Nat, (∀ d ∈ digits, d < 16) ∧
    List.Forall₂ (fun d ch => ch = hexDigit d ∨ ch = (hexDigit d).toLower) digits (hexDigits k a) := by
  induction k generalizing a with
  | zero => exact ⟨[], by simp, .nil⟩
  | succ k ih =>
    obtain ⟨digits, hlt, hdigits⟩ := ih (a / 16)
    refine ⟨digits ++ [a % 16], ?_, List.rel_append hdigits (.cons (.inl rfl) .nil)⟩
    simp only [List.mem_append, List.mem_singleton]
    rintro d (hd | rfl)
    · exact hlt d hd
    · exact Nat.mod_lt a (by decide)

/-- Enough printed digits write the number. -/
theorem hexDigits_writesDigits {k a : Nat} (hk : 0 < k) (ha : a < 16 ^ k) :
    ∃ digits, a = valueOfDigits 16 digits ∧ WritesDigits 16 digits (hexDigits k a) := by
  obtain ⟨digits, hlt, hdigits⟩ := hexDigits_forall₂ k a
  have hlength : digits.length = k := hdigits.length_eq.trans (hexDigits_length k a)
  have hread := digitsValue_written (Nat.le_refl 16) hdigits hlt 0
  rw [digitsValue_hexDigits, Nat.mod_eq_of_lt ha] at hread
  exact ⟨digits, Option.some.inj hread, List.ne_nil_of_length_pos (by omega), hlt, hdigits⟩

/-- The print of an instruction writes it, with any comment after it. -/
theorem writesInstr_printInstr (h : i.wellFormed n = true) (hline : WithComment (printInstr n i) line) :
    WritesInstr i line := by
  have hfits : i.operand < 16 ^ hexWidth n := (Instr.wellFormed_iff.1 h).trans_le (two_pow_le_hexWidth n)
  obtain ⟨digits, hvalue, hdigits⟩ := hexDigits_writesDigits (by unfold hexWidth; omega) hfits
  refine ⟨[], [' '], [], '0' :: 'x' :: hexDigits (hexWidth n) i.operand, by simp [Blanks], by simp [Blanks],
    by simp [Blanks], by simp, ⟨digits, .inr ⟨hvalue, _, rfl, hdigits⟩⟩, ?_⟩
  simpa [printInstr, mnemonicChars_eq] using hline

theorem parseLine_printInstr (h : i.wellFormed n = true) (hline : WithComment (printInstr n i) line) :
    parseLine n line = .ok (some i) := by
  rw [parseLine_writesInstr n (writesInstr_printInstr h hline), if_pos h]

/-! ### Programs -/

variable {p : Option Instr × List Char} {program : List (Option Instr × List Char)}

theorem WritesLine.parseLine_eq (h : WritesLine n p) : parseLine n p.2 = .ok p.1 := by
  obtain ⟨_ | i, line⟩ := p
  · exact parseLine_writesNothing n h.1
  · rw [parseLine_writesInstr n h.1, if_pos h.2.1]

theorem WritesLine.no_newline (h : WritesLine n p) : '\n' ∉ p.2 := by
  obtain ⟨_ | i, line⟩ := p
  · exact h.2
  · exact h.2.2

theorem WritesLine.wellFormed (h : WritesLine n p) (hi : p.1 = some i) : i.wellFormed n = true := by
  obtain ⟨_, line⟩ := p
  subst hi
  exact h.2.1

/-- Lines joined by line feeds assemble as the lines do (log entry 18). -/
theorem assemble_intercalate (n : Nat) {lines : List (List Char)} (h : ∀ l ∈ lines, '\n' ∉ l) :
    assemble n (List.intercalate ['\n'] lines) = assembleLines n lines := by
  by_cases hne : lines = []
  · subst hne; rfl
  · rw [assemble, splitAt_intercalate (by decide) hne]
    exact fun l hl ch hc => decide_eq_false (ne_of_mem_of_not_mem hc (h l hl))

/-- The lines of a program assemble to the words of its instructions, in the order written. -/
theorem assembleLines_writesLine (h : ∀ p ∈ program, WritesLine n p) :
    assembleLines n (program.map Prod.snd) = .ok ((program.filterMap Prod.fst).map (encode n)) := by
  induction program with
  | nil => rfl
  | cons p rest ih =>
    have hline := (h p List.mem_cons_self).parseLine_eq
    have hrest := ih fun q hq => h q (List.mem_cons_of_mem p hq)
    obtain ⟨_ | i, line⟩ := p <;> simp [assembleLines, hline, hrest]

theorem wellFormed_of_writesLine (h : ∀ p ∈ program, WritesLine n p) (hi : i ∈ program.filterMap Prod.fst) :
    i.wellFormed n = true := by
  obtain ⟨p, hp, hpi⟩ := List.mem_filterMap.1 hi
  exact (h p hp).wellFormed hpi

end

/-- Settles O5: one lemma for each kind of line, and the print of an instruction is a line that writes it. -/
theorem writtenInstructionsAreReadBack : Obligations.WrittenInstructionsAreReadBack := by
  refine ⟨fun n i line hline => ⟨fun h => ?_, fun h => ?_⟩, fun n line => parseLine_writesNothing n,
    fun n i comment h => ⟨parseLine_printInstr h (.inl rfl), parseLine_printInstr h (.inr ⟨comment, rfl⟩)⟩⟩
  · rw [parseLine_writesInstr n hline, if_pos h]
  · rw [parseLine_writesInstr n hline, h, if_neg Bool.false_ne_true]

/-- Settles O51: the words are the encodings of the instructions that the lines write. -/
theorem programsAssembleLineByLine : Obligations.ProgramsAssembleLineByLine := by
  intro n program h
  have hnewline : ∀ l ∈ program.map Prod.snd, '\n' ∉ l := by
    intro l hl
    obtain ⟨p, hp, rfl⟩ := List.mem_map.1 hl
    exact (h p hp).no_newline
  refine ⟨(program.filterMap Prod.fst).map (encode n), ?_, List.length_map .., fun k i hk => ?_⟩
  · rw [assemble_intercalate n hnewline, assembleLines_writesLine h]
  · refine ⟨encode n i, by rw [List.getElem?_map, hk]; rfl, ?_⟩
    exact encode_toNat (wellFormed_of_writesLine h (List.mem_of_getElem? hk))

end Sys2Proof.Machine
end

section
/-! PROOFS. The execution unit: the opcode table, each opcode in a whole step, and the unit at its contract boundary
(40_execution_unit.md). -/

namespace Sys2Proof.Machine

/-! ### The confirmed transforms as numbers (R113) -/

section

variable (v : Byte)

@[simp] theorem dblByte_toNat : (dblByte v).toNat = v.toNat * 2 % 256 := by simp [dblByte]

@[simp] theorem halfByte_toNat : (halfByte v).toNat = v.toNat / 2 := by
  have := v.isLt
  simp only [halfByte, BitVec.toNat_ofNat]
  omega

@[simp] theorem incByte_toNat : (incByte v).toNat = (v.toNat + 1) % 256 := by simp [incByte]

@[simp] theorem decByte_toNat : (decByte v).toNat = (v.toNat + 255) % 256 := by
  simp only [decByte, BitVec.toNat_ofInt]
  omega

@[simp] theorem quadByte_toNat : (quadByte v).toNat = v.toNat * 4 % 256 := by simp [quadByte]

/-- The form in which R113 gives the exchange of the nibbles. -/
theorem nswapByte_toNat_eq_or : (nswapByte v).toNat = (v.toNat <<< 4 ||| v.toNat >>> 4) % 256 := by simp [nswapByte]

/-- The two shifted bytes have no bit in common, so that their union is their sum. -/
@[simp] theorem nswapByte_toNat : (nswapByte v).toNat = v.toNat % 16 * 16 + v.toNat / 16 := by
  have hv := v.isLt
  have hhigh : v.toNat >>> 4 < 2 ^ 4 := by rw [Nat.shiftRight_eq_div_pow]; omega
  rw [nswapByte_toNat_eq_or, ← Nat.shiftLeft_add_eq_or_of_lt hhigh, Nat.shiftLeft_eq, Nat.shiftRight_eq_div_pow]
  omega

/-! ### The forms in which R114 to R123 restate them -/

theorem dblByte_toNat_mod_two : (dblByte v).toNat % 2 = 0 := by rw [dblByte_toNat]; omega

theorem dblByte_eq_shiftLeft : dblByte v = v <<< 1 :=
  BitVec.eq_of_toNat_eq (by simp [Nat.shiftLeft_eq])

theorem halfByte_toNat_le : (halfByte v).toNat ≤ 127 := by
  have := v.isLt
  rw [halfByte_toNat]; omega

theorem halfByte_eq_shiftRight : halfByte v = v >>> 1 :=
  BitVec.eq_of_toNat_eq (by simp [Nat.shiftRight_eq_div_pow])

/-- The least non-negative residue of `v - 1` (R119). -/
theorem decByte_eq_ofNat : decByte v = BitVec.ofNat 8 ((v.toNat + 255) % 256) :=
  BitVec.eq_of_toNat_eq (by simp)

theorem decByte_toNat_cast : ((decByte v).toNat : Int) = ((v.toNat : Int) - 1) % 256 := by
  rw [decByte_toNat]; omega

theorem decByte_incByte : decByte (incByte v) = v := by
  have := v.isLt
  apply BitVec.eq_of_toNat_eq
  rw [decByte_toNat, incByte_toNat]; omega

theorem incByte_decByte : incByte (decByte v) = v := by
  have := v.isLt
  apply BitVec.eq_of_toNat_eq
  rw [incByte_toNat, decByte_toNat]; omega

theorem quadByte_toNat_mod_four : (quadByte v).toNat % 4 = 0 := by rw [quadByte_toNat]; omega

theorem quadByte_eq_shiftLeft : quadByte v = v <<< 2 :=
  BitVec.eq_of_toNat_eq (by simp [Nat.shiftLeft_eq])

theorem quadByte_eq_dblByte_dblByte : quadByte v = dblByte (dblByte v) := by
  apply BitVec.eq_of_toNat_eq
  rw [quadByte_toNat, dblByte_toNat, dblByte_toNat]; omega

theorem nswapByte_eq_ofNat : nswapByte v = BitVec.ofNat 8 (v.toNat % 16 * 16 + v.toNat / 16) := by
  rw [← nswapByte_toNat, BitVec.ofNat_toNat, BitVec.setWidth_eq]

theorem nswapByte_nswapByte : nswapByte (nswapByte v) = v := by
  have := v.isLt
  apply BitVec.eq_of_toNat_eq
  rw [nswapByte_toNat, nswapByte_toNat]; omega

theorem nswapByte_eq_rotateLeft : nswapByte v = v.rotateLeft 4 := by
  apply BitVec.eq_of_toNat_eq
  have hhigh : v.toNat >>> 4 < 2 ^ 8 := (Nat.shiftRight_le _ _).trans_lt v.isLt
  rw [nswapByte_toNat_eq_or, BitVec.toNat_rotateLeft, Nat.or_mod_two_pow (n := 8), Nat.mod_eq_of_lt hhigh]

theorem nswapByte_eq_rotateRight : nswapByte v = v.rotateRight 4 := by
  rw [nswapByte_eq_rotateLeft, BitVec.rotateLeft_def, BitVec.rotateRight_def, BitVec.or_comm]

theorem nswapByte_of_nibbles_eq {v : Byte} (h : v.toNat % 16 = v.toNat / 16) : nswapByte v = v := by
  apply BitVec.eq_of_toNat_eq
  rw [nswapByte_toNat]; omega

end

/-! ### Every opcode in a whole step -/

/-- Every instruction acts on the tape by its table entry, and by its operand under the default schedule (R112, R194,
R195). -/
theorem actsOnTape (i : Instr) : ActsOnTape i i.operand (byteTransform cfg i) := by
  intro s
  refine ⟨fun ha => ⟨_, ?_, completed_effect (byteTransform cfg i) ha⟩, exec_operandOutOfBounds⟩
  rw [exec_eq_execWith, execWith, instructionStep_cfg _ _ ha]

/-- The word of an instruction under the machine's configuration (R90, R92). -/
theorem encode_cfg_toNat (i : Instr) (h : i.operand < 2 ^ 32) :
    (encode cfg.addrWidth i).toNat = i.operand * 16 + i.opcode :=
  encode_toNat (Instr.wellFormed_iff.2 h)

/-- What an instruction does is what its entry of the opcode table does. -/
theorem byteTransform_eq_tableEntry (c : Config) (i : Instr) :
    byteTransform c i = tableEntry c (BitVec.ofNat 4 i.opcode) := by
  rw [← byteTransform_ofFields c _ i.operand, ofFields_self]

/-- Settles O6: the entries are the transforms as numbers, and every meaning is the shared step with the entry of its
opcode. -/
theorem opcodeTableHasTheSixteenTransforms : Obligations.OpcodeTableHasTheSixteenTransforms := by
  refine ⟨fun c v => ?_, fun i s => ?_⟩
  · exact ⟨rfl, dblByte_toNat v, halfByte_toNat v, rfl, incByte_toNat v, decByte_toNat_cast v, rfl, quadByte_toNat v,
      rfl, nswapByte_toNat_eq_or v, rfl, rfl, rfl, rfl, rfl, rfl⟩
  · rw [exec_eq_execWith, execWith, byteTransform_eq_tableEntry]

/-- Settles O7: the common effect with the identity. -/
theorem identKeepsTheByteAndStillRotates : Obligations.IdentKeepsTheByteAndStillRotates :=
  fun a => ⟨actsOnTape (.ident a), encode_cfg_toNat (.ident a)⟩

/-- Settles O8: the common effect with doubling. -/
theorem dblDoublesTheAddressedByte : Obligations.DblDoublesTheAddressedByte :=
  fun a => ⟨actsOnTape (.dbl a), encode_cfg_toNat (.dbl a), rfl, rfl, rfl, rfl, rfl,
    fun v => ⟨dblByte_toNat_mod_two v, dblByte_eq_shiftLeft v⟩⟩

/-- Settles O9: the common effect with halving. -/
theorem halfHalvesTheAddressedByte : Obligations.HalfHalvesTheAddressedByte :=
  fun a => ⟨actsOnTape (.half a), encode_cfg_toNat (.half a), rfl, rfl, rfl, rfl, rfl, rfl,
    fun v => ⟨halfByte_toNat_le v, halfByte_eq_shiftRight v⟩⟩

/-- Settles O10: the common effect with the increment. -/
theorem incAddsOneToTheAddressedByte : Obligations.IncAddsOneToTheAddressedByte :=
  fun a => ⟨actsOnTape (.inc a), encode_cfg_toNat (.inc a), rfl, rfl, rfl, rfl, rfl⟩

/-- Settles O11: the common effect with the decrement, whose residue is that of `v + 255`. -/
theorem decTakesOneFromTheAddressedByte : Obligations.DecTakesOneFromTheAddressedByte :=
  fun a => ⟨funext decByte_eq_ofNat ▸ actsOnTape (.dec a), encode_cfg_toNat (.dec a), rfl, rfl, rfl, rfl,
    fun v => ⟨decByte_toNat_cast v, decByte_incByte v, incByte_decByte v⟩⟩

/-- Settles O12: the common effect with quadrupling. -/
theorem quadQuadruplesTheAddressedByte : Obligations.QuadQuadruplesTheAddressedByte :=
  fun a => ⟨actsOnTape (.quad a), encode_cfg_toNat (.quad a), rfl, rfl, rfl, rfl, rfl, rfl, rfl, rfl, rfl,
    fun v => ⟨quadByte_toNat_mod_four v, quadByte_eq_shiftLeft v, quadByte_eq_dblByte_dblByte v⟩⟩

/-- Settles O13: the common effect with the exchange of the nibbles, in the form of a sum. -/
theorem nswapExchangesTheNibblesOfTheAddressedByte : Obligations.NswapExchangesTheNibblesOfTheAddressedByte :=
  fun a => ⟨funext nswapByte_eq_ofNat ▸ actsOnTape (.nswap a), encode_cfg_toNat (.nswap a), rfl, rfl, rfl, rfl, rfl,
    rfl, fun v => ⟨nswapByte_toNat_eq_or v, nswapByte_nswapByte v, nswapByte_eq_rotateLeft v,
      nswapByte_eq_rotateRight v, nswapByte_of_nibbles_eq⟩⟩

/-- Settles O14: the common effect with each configured transform. -/
theorem openOpcodesApplyTheirConfiguredTransforms : Obligations.OpenOpcodesApplyTheirConfiguredTransforms := fun a =>
  ⟨⟨actsOnTape (.op3 a), encode_cfg_toNat (.op3 a)⟩, ⟨actsOnTape (.op6 a), encode_cfg_toNat (.op6 a)⟩,
    ⟨actsOnTape (.op8 a), encode_cfg_toNat (.op8 a)⟩, ⟨actsOnTape (.op10 a), encode_cfg_toNat (.op10 a)⟩,
    ⟨actsOnTape (.op11 a), encode_cfg_toNat (.op11 a)⟩, ⟨actsOnTape (.op12 a), encode_cfg_toNat (.op12 a)⟩,
    ⟨actsOnTape (.op13 a), encode_cfg_toNat (.op13 a)⟩, ⟨actsOnTape (.op14 a), encode_cfg_toNat (.op14 a)⟩,
    ⟨actsOnTape (.op15 a), encode_cfg_toNat (.op15 a)⟩⟩

/-! ### The unit at its contract boundary (R111, R112) -/

theorem HV.asInt_eq_none {x : HV} (h : ∀ z, x ≠ .int z) : x.asInt = none := by
  cases x with
  | int z => exact absurd rfl (h z)
  | bytes _ | mutbytes _ | other => rfl

theorem HV.asMutbytes_eq_none {x : HV} (h : ∀ t, x ≠ .mutbytes t) : x.asMutbytes = none := by
  cases x with
  | mutbytes t => exact absurd rfl (h t)
  | bytes _ | int _ | other => rfl

/-- A store of a byte sequence with the byte at `a` transformed is the store of the sequence modified there. -/
theorem memBytes_transformed (f : Byte → Byte) {a : Nat} {t : Bytes} (ha : a < t.length) :
    memBytes (memWrite (memOfBytes t) a (f (cellAt (memOfBytes t).cells a))) = t.modify a f := by
  have hread : some (cellAt (memOfBytes t).cells a) = some t[a] := by
    rw [← memRead_of_lt ha, memRead_memOfBytes, List.getElem?_eq_getElem ha]
  rw [Option.some.inj hread, memBytes_memWrite, memBytes_memOfBytes, List.modify_eq_set_get f ha]
  rfl

section

variable (c : Config) {k a : Int} {t : Bytes}

theorem executeOpcodePort_typeError {opcode operand tape : HV}
    (h : (∀ k, opcode ≠ .int k) ∨ (∀ a, operand ≠ .int a) ∨ (∀ t, tape ≠ .mutbytes t)) :
    executeOpcodePort c opcode operand tape = .error .typeError := by
  unfold executeOpcodePort
  rcases h with h | h | h
  · rw [HV.asInt_eq_none h]
  · rw [HV.asInt_eq_none h]; cases opcode.asInt <;> rfl
  · rw [HV.asMutbytes_eq_none h]; cases opcode.asInt <;> cases operand.asInt <;> rfl

theorem executeOpcodePort_opcodeOutOfRange (h : ¬ (0 ≤ k ∧ k < 16)) :
    executeOpcodePort c (.int k) (.int a) (.mutbytes t) = .error .valueError := if_neg h

/-- An empty tape has no operand in bounds. -/
theorem executeOpcodePort_operandOutOfBounds (h : ¬ IndexInBounds a t.length) :
    executeOpcodePort c (.int k) (.int a) (.mutbytes t) = .error .valueError := by
  by_cases hk : 0 ≤ k ∧ k < 16
  · have happly := applyTransform_outOfBounds (tableEntry c (BitVec.ofInt 4 k)) (m := memOfBytes t) h
    simp only [executeOpcodePort, HV.asInt, HV.asMutbytes, if_pos hk, happly, Except.map]
  · exact executeOpcodePort_opcodeOutOfRange c hk

theorem executeOpcodePort_inBounds (hk : 0 ≤ k ∧ k < 16) {a : Nat} (ha : a < t.length) :
    executeOpcodePort c (.int k) (.int a) (.mutbytes t) =
      .ok (.mutbytes (t.modify a (tableEntry c (BitVec.ofInt 4 k)))) := by
  have happly := applyTransform_inBounds (tableEntry c (BitVec.ofInt 4 k)) (m := memOfBytes t) ha
  simp only [executeOpcodePort, HV.asInt, HV.asMutbytes, if_pos hk, happly, Except.map, memBytes_transformed _ ha]

/-- On a tape of one byte the unit writes the byte of the transform's value. -/
theorem executeOpcodePort_singleton (hk : 0 ≤ k ∧ k < 16) {v : Byte} {n : Nat}
    (h : (tableEntry c (BitVec.ofInt 4 k) v).toNat = n) :
    executeOpcodePort c (.int k) (.int 0) (.mutbytes [v]) = .ok (.mutbytes [BitVec.ofNat 8 n]) := by
  subst h
  rw [BitVec.ofNat_toNat, BitVec.setWidth_eq]
  exact executeOpcodePort_inBounds c hk (a := 0) Nat.one_pos

end

/-- Settles O19: one lemma for each way a call ends. -/
theorem executeOpcodePortMeetsItsContract : Obligations.ExecuteOpcodePortMeetsItsContract := by
  refine fun c opcode operand tape => ⟨executeOpcodePort_typeError c, ?_⟩
  rintro k a t rfl rfl rfl
  refine ⟨fun h => ?_, fun hk hk' ha ha' => ?_⟩
  · by_cases hk : 0 ≤ k ∧ k < 16
    · exact executeOpcodePort_operandOutOfBounds c fun hbounds => by omega
    · exact executeOpcodePort_opcodeOutOfRange c hk
  · lift a to Nat using ha
    refine ⟨_, executeOpcodePort_inBounds c ⟨hk, hk'⟩ (by exact_mod_cast ha'), List.length_modify .., fun j => ?_⟩
    rw [List.getElem?_modify]
    by_cases hj : a = j
    · simp [hj]
    · simp [hj, Ne.symm hj]

/-- Settles O15: each hypothesis gives the value of its entry at an even byte. -/
theorem namedHypothesesMakeOpcodesThreeAndEightHalveEvenBytes :
    Obligations.NamedHypothesesMakeOpcodesThreeAndEightHalveEvenBytes := fun c v heven =>
  ⟨fun hop3 => executeOpcodePort_singleton c (by decide) (hop3 v heven),
    fun hop8 => executeOpcodePort_singleton c (by decide) (hop8 v heven)⟩

end Sys2Proof.Machine
end
section
/-! PROOFS. The rotator at its contract boundary: a failed type test, an amount outside the tape, and an amount in
bounds, whose result is the library's `List.rotate` of the tape (41_tape_rotation.md). -/

namespace Sys2Proof.Machine

section

variable {t : Bytes}

/-- Rotation of the stored tape is the library's rotation of the byte sequence (R141). -/
theorem memBytes_memRotl_memOfBytes {n : Nat} (hn : n < t.length) :
    memBytes (memRotl (memOfBytes t) n) = t.rotate n := by
  rw [memBytes_memRotl _ hn, memBytes_memOfBytes, List.rotate_eq_drop_append_take hn.le]

theorem rotateTapePort_typeError {tape n : HV} (h : (∀ t, tape ≠ .mutbytes t) ∨ (∀ z, n ≠ .int z)) :
    rotateTapePort tape n = .error .typeError := by
  unfold rotateTapePort
  rcases h with h | h
  · rw [HV.asMutbytes_eq_none h]
  · rw [HV.asInt_eq_none h]; cases tape.asMutbytes <;> rfl

/-- An empty tape has no amount in bounds. -/
theorem rotateTapePort_outOfBounds {z : Int} (h : ¬ IndexInBounds z t.length) :
    rotateTapePort (.mutbytes t) (.int z) = .error .valueError := by
  have hrotate := rotateTape_outOfBounds (m := memOfBytes t) h
  simp only [rotateTapePort, HV.asMutbytes, HV.asInt, hrotate, Except.map]

theorem rotateTapePort_inBounds {n : Nat} (hn : n < t.length) :
    rotateTapePort (.mutbytes t) (.int n) = .ok (.bytes (t.rotate n)) := by
  have hrotate := rotateTape_inBounds (m := memOfBytes t) hn
  simp only [rotateTapePort, HV.asMutbytes, HV.asInt, hrotate, Except.map, memBytes_memRotl_memOfBytes hn]

end

/-- Settles O20: one lemma for each way a call ends, and the library's two forms of a rotation. -/
theorem rotateTapePortMeetsItsContract : Obligations.RotateTapePortMeetsItsContract := by
  refine fun tape n => ⟨rotateTapePort_typeError, ?_⟩
  rintro t z rfl rfl
  refine ⟨fun h => rotateTapePort_outOfBounds fun ⟨hnonneg, hlt⟩ => by omega, ?_⟩
  rintro m rfl hm
  exact ⟨t.rotate m, rotateTapePort_inBounds hm, List.rotate_eq_drop_append_take hm.le, List.length_rotate ..,
    fun _ hj => List.getElem?_rotate hj⟩

end Sys2Proof.Machine
end

section
/-! PROOFS. The byte order of the default key (R12, R151), and the generation step: one seed stream, whose first bytes
are the tape and whose groups are the words of the program (R153, R160 to R173). -/

namespace Sys2Proof.Machine

/-! ### Byte order (R12) -/

/-- A byte appended at the end moves each byte before it up by one power of 256. -/
theorem be_eq_sum (b : Bytes) :
    be b = (Finset.range b.length).sum fun i => (b.getD i 0).toNat * 256 ^ (b.length - 1 - i) := by
  induction b using List.reverseRecOn with
  | nil => rfl
  | append_singleton b v ih =>
    rw [be_append_singleton, ih, List.length_append, List.length_singleton, Finset.sum_range_succ, Finset.sum_mul]
    congr 1
    · refine Finset.sum_congr rfl fun i hi => ?_
      have hlt := Finset.mem_range.1 hi
      have hpow : b.length + 1 - 1 - i = b.length - 1 - i + 1 := by omega
      rw [List.getD_append _ _ _ _ hlt, hpow, pow_succ, mul_assoc]
    · simp

theorem u32be_map_toNat {x : Nat} (h : x < 2 ^ 32) :
    (u32be x).map BitVec.toNat = [x / 2 ^ 24, x / 2 ^ 16 % 256, x / 2 ^ 8 % 256, x % 256] := by
  have htop : x / 2 ^ 24 % 2 ^ 8 = x / 2 ^ 24 := Nat.mod_eq_of_lt (by omega)
  simp only [u32be, List.map_cons, List.map_nil, BitVec.toNat_ofNat, htop]

theorem be_u32be {x : Nat} (h : x < 2 ^ 32) : be (u32be x) = x := by
  rw [u32be, be_four]
  simp only [BitVec.toNat_ofNat]
  omega

/-! ### The default key (R151) -/

theorem defaultKeyser_tapehash1 (p : Bytes) (cs tsm : Nat) : defaultKeyser .tapehash1 p cs tsm = p ++ u32be cs :=
  List.append_nil _

theorem defaultKeyser_tapehash2 (p : Bytes) (cs tsm : Nat) : defaultKeyser .tapehash2 p cs tsm = p ++ u32be tsm :=
  congrArg (· ++ u32be tsm) (List.append_nil p)

theorem defaultKeyser_tapehash3 (p : Bytes) (cs tsm : Nat) :
    defaultKeyser .tapehash3 p cs tsm = p ++ u32be cs ++ u32be tsm := rfl

/-- Settles O22: the key of each variant by its equation, and the two laws of the byte order. -/
theorem keyIsThePreimageThenTheUsedParameters : Obligations.KeyIsThePreimageThenTheUsedParameters := by
  refine ⟨fun p cs tsm => ?_, fun x hx => ⟨u32be_map_toNat hx, be_u32be hx⟩, be_eq_sum, fun _ => rfl⟩
  simp only [cfg_keyser, defaultKeyser_tapehash1, defaultKeyser_tapehash2, defaultKeyser_tapehash3,
    List.length_append, u32be_length, Nat.add_assoc, and_self]

/-! ### The groups of the stream (R171 to R173) -/

section

variable {c : Config} {tsm j : Nat} {stream : Bytes}

theorem streamGroup_getD {i : Nat} (hi : i < groupSize c) :
    (streamGroup c tsm stream j).getD i 0 = stream.getD (tapeLength c tsm + groupSize c * j + i) 0 := by
  simp only [streamGroup, List.getD_eq_getElem?_getD, List.getElem?_take_of_lt hi, List.getElem?_drop]

/-- A stream of the requested length holds group `j` of each instruction `j`. -/
theorem streamGroup_length {cs : Nat} (hlen : stream.length = tapeLength c tsm + cs * groupSize c) (hj : j < cs) :
    (streamGroup c tsm stream j).length = groupSize c := by
  have hgroups : groupSize c * j + groupSize c ≤ cs * groupSize c := by
    rw [← Nat.mul_succ, Nat.mul_comm]; exact Nat.mul_le_mul_right _ hj
  rw [streamGroup, List.length_take, List.length_drop]
  omega

/-- The opcode of group `j` as a byte of the stream (R172). -/
theorem groupOpcode_streamGroup :
    groupOpcode (streamGroup c tsm stream j) =
      (stream.getD (tapeLength c tsm + groupSize c * j) 0).toNat % 16 := by
  have hpos : 0 < groupSize c := by unfold groupSize; omega
  rw [groupOpcode, List.headD_eq_head?_getD, List.head?_eq_getElem?, ← List.getD_eq_getElem?_getD,
    streamGroup_getD hpos, Nat.add_zero]

/-- The number in the operand bytes of group `j` as a sum over the stream (R173). -/
theorem be_tail_streamGroup {cs : Nat} (hlen : stream.length = tapeLength c tsm + cs * groupSize c) (hj : j < cs) :
    be (streamGroup c tsm stream j).tail =
      (Finset.range c.operandSeedBytes).sum fun i =>
        (stream.getD (tapeLength c tsm + groupSize c * j + 1 + i) 0).toNat * 256 ^ (c.operandSeedBytes - 1 - i) := by
  have htail : (streamGroup c tsm stream j).tail.length = c.operandSeedBytes := by
    rw [List.length_tail, streamGroup_length hlen hj, groupSize, Nat.add_sub_cancel_left]
  rw [be_eq_sum, htail]
  refine Finset.sum_congr rfl fun i hi => ?_
  have hbyte : i + 1 < groupSize c := by have := Finset.mem_range.1 hi; unfold groupSize; omega
  rw [List.getD_eq_getElem?_getD, List.getElem?_tail, ← List.getD_eq_getElem?_getD, streamGroup_getD hbyte,
    Nat.add_comm i 1, ← Nat.add_assoc]

end

/-! ### The generation step (R190) -/

/-- In `GEN` a step without reset is the generation step (R185, R190). -/
theorem stepWith_gen {c : Config} {s : State} (hgen : s.phase = .gen) (hhost : hostNow s ≠ .reset) :
    stepWith c s = .next (generationStep c (hostTaken s)) := by
  rw [stepWith, sequencer_busy hhost (not_quiescent_of (.inl hgen)), advance_gen (s := hostTaken s) hgen]

/-- Under legal parameters the tape length passes its test (R160). -/
theorem stepWith_gen_loads {c : Config} {s : State} (hc : c.Legal) (hgen : s.phase = .gen)
    (hhost : hostNow s ≠ .reset) (htsm : ParamInRange s.tsm) :
    stepWith c s = .next (loadGenerated c (seedStream c s.variant s.pre s.codeSize s.tsm) (hostTaken s)) := by
  rw [stepWith_gen hgen hhost, generationStep_loads (s := hostTaken s) (tapeLength_pos hc htsm)]
  rfl

/-- The stored tape reads as the first bytes of the stream (R161). -/
theorem memRead_streamTape {c : Config} {tsm i : Nat} (stream : Bytes) (hi : i < tapeLength c tsm) :
    memRead (memOfBytes (streamTape c tsm stream)) i = stream[i]? := by
  rw [memRead_memOfBytes, streamTape, List.getElem?_take_of_lt hi]

/-- Settles O23: the step loads the stream, whose tape reads as its first bytes and whose words are those of its
groups. -/
theorem generationBuildsTapeAndProgramFromOneStream : Obligations.GenerationBuildsTapeAndProgramFromOneStream := by
  intro c s hc hgen hhost htsm
  have hlen := seedStream_length c s.variant s.pre s.codeSize s.tsm
  refine ⟨seedStream c s.variant s.pre s.codeSize s.tsm, _, rfl, hlen, stepWith_gen_loads hc hgen hhost htsm, rfl, ?_,
    fun i hi => memRead_streamTape _ hi, generateProgram_length ..,
    fun j hj => ⟨_, generateProgram_getElem? c s.tsm _ hj, ?_⟩⟩
  · exact streamTape_length c s.tsm (hlen ▸ Nat.le_add_right _ _)
  · rw [generatedWord_toNat hc htsm, groupOperand, be_tail_streamGroup hlen hj, groupOpcode_streamGroup]
    rfl

end Sys2Proof.Machine
end

section
/-! PROOFS. The tape length and its defensive test (R160). -/

namespace Sys2Proof.Machine

/-- The seed stream is never too short for the tape, for any configuration (R153, R161). -/
theorem streamTape_seedStream_length (c : Config) (v : Variant) (pre : Bytes) (cs tsm : Nat) :
    (streamTape c tsm (seedStream c v pre cs tsm)).length = tapeLength c tsm :=
  streamTape_length c tsm ((seedStream_length c v pre cs tsm).symm ▸ Nat.le_add_right _ _)

/-- Settles O24: both ends of the generation step, the second with a seed stream that fills the tape. -/
theorem tapeLengthIsComputedAndTested : Obligations.TapeLengthIsComputedAndTested := by
  intro c s hgen hhost
  rw [stepWith_gen hgen hhost]
  constructor
  · intro hfails
    exact congrArg Host.Outcome.next (generationStep_fails (s := hostTaken s) hfails)
  · intro hpasses
    exact ⟨_, congrArg Host.Outcome.next (generationStep_loads (s := hostTaken s) hpasses), rfl,
      streamTape_seedStream_length c s.variant s.pre s.codeSize s.tsm, rfl⟩

end Sys2Proof.Machine
end

section
/-! PROOFS. The words of a generated program: their fields are legal, and on a tape of the program's length none of
them can raise (R175). -/

namespace Sys2Proof.Machine

/-- An operand on the tape lets every instruction complete, whatever its opcode (R145, R195). -/
theorem exec_operandInBounds {i : Instr} {s : State} (h : i.operand < s.tape.len) :
    exec i s = .next (completeInstruction (steppedTape (byteTransform cfg i) i.operand i.operand s.tape) s) := by
  rw [exec_eq_execWith, execWith, instructionStep_cfg _ _ h]

/-- Settles O25: the generation step loads a program whose operands lie on the tape, and such an operand is in bounds
on every tape of that length. -/
theorem generatedInstructionsAreInBoundsAndNeverRaise :
    Obligations.GeneratedInstructionsAreInBoundsAndNeverRaise := by
  intro s t hgen htsm hhost hstep w hw
  rw [step_eq_stepWith, stepWith_gen_loads cfg_legal hgen hhost htsm] at hstep
  obtain rfl := Host.Outcome.next.inj hstep
  obtain ⟨hword, hoperand⟩ := mem_generateProgram cfg_legal htsm hw
  exact ⟨hword, opcode_lt _, hoperand, hoperand.trans_le (tapeLength_le cfg_legal htsm),
    fun u hu => ⟨_, exec_operandInBounds (hoperand.trans_eq hu.symm), rfl, rfl, rfl⟩⟩

end Sys2Proof.Machine
end

section
/-! PROOFS. One step of the driver: what a command, an instruction word and a quiescent phase make of it (R181, R185 to
R189, R192), one rule for each kind of step. -/

namespace Sys2Proof.Machine

section

variable {s : State} {cmd : Command}

/-! ### The rules of a step -/

/-- The phases that wait for the host and the phases of an invocation are all there are (R181). -/
theorem quiescent_or_busy (p : Phase) : (p = .idle ∨ p = .done ∨ p = .error) ∨ (p = .gen ∨ p = .run) := by
  cases p <;> simp

/-- In a quiescent phase a presented command is accepted (R185). -/
theorem step_start (hq : s.phase = .idle ∨ s.phase = .done ∨ s.phase = .error) (hcmd : hostNow s = .start cmd) :
    step s = .next (startStep cfg cmd (hostTaken s)) :=
  sequencer_start hcmd (quiescent_of hq)

/-- In `GEN` and `RUN` a step without reset is the sequencer's own (R185). -/
theorem step_busy (hr : hostNow s ≠ .reset) (hbusy : s.phase = .gen ∨ s.phase = .run) :
    step s = advance cfg exec (hostTaken s) :=
  sequencer_busy hr (not_quiescent_of hbusy)

/-- An accepted command with the host's actions written out (R185). -/
theorem step_host_start (hq : s.phase = .idle ∨ s.phase = .done ∨ s.phase = .error) (rest : List HostAction) :
    step { s with host := .start cmd :: rest } = .next (startStep cfg cmd { s with host := rest }) :=
  step_start (s := { s with host := .start cmd :: rest }) hq rfl

/-- An ignored action leaves no trace in a busy step (R185). -/
theorem step_host_busy {action : HostAction} (hr : action ≠ .reset) (hbusy : s.phase = .gen ∨ s.phase = .run)
    (rest : List HostAction) :
    step { s with host := action :: rest } = advance cfg exec { s with host := rest } :=
  step_busy (s := { s with host := action :: rest }) hr hbusy

/-- In `RUN` a step fetches the word at `PC` and is the meaning of the instruction it decodes to (R192). -/
theorem step_instruction {w : Nat} (hp : s.phase = .run) (hpc : s.pc < s.codeSize) (hr : hostNow s ≠ .reset)
    (hw : s.prog[s.pc]? = some w) : step s = exec (decodeStored cfg.addrWidth w) (hostTaken s) := by
  rw [step_busy hr (.inr hp), advance_instruction (s := hostTaken s) hp hpc hw]

/-- An instruction never stops the machine (R220). -/
theorem exec_isNext (i : Instr) (s : State) : ∃ t, exec i s = .next t := by
  rcases exec_cases i s with ⟨_, m, he, _⟩ | he
  · exact ⟨_, he⟩
  · exact ⟨_, he⟩

/-! ### Commands -/

/-- The phase an accepted `START` leads to, by its faults (R182). -/
theorem startStep_phase {c : Config} (hc : c.Legal) (cmd : Command) (s : State) :
    (¬ TypeFault cmd ∧ ¬ ValueFault cmd ∧ (startStep c cmd s).phase = .gen) ∨
    ((TypeFault cmd ∨ ValueFault cmd) ∧ (startStep c cmd s).phase = .error) := by
  rcases startStep_cases hc cmd s with ⟨ht, he⟩ | ⟨_, hv, he⟩ | ⟨ht, hv, l, _, he⟩
  · exact .inr ⟨.inl ht, by rw [he, raise_phase]⟩
  · exact .inr ⟨.inr hv, by rw [he, raise_phase]⟩
  · exact .inl ⟨ht, hv, by rw [he, latch_phase]⟩

/-- An accepted `START` that raises no error clears `ERR` (R186). -/
theorem startStep_err {c : Config} (h : (startStep c cmd s).phase ≠ .error) : (startStep c cmd s).err = .none := by
  cases hv : validate c cmd with
  | error k => rw [startStep_error hv] at h; exact absurd rfl h
  | ok l => rw [startStep_ok hv]; rfl

theorem validate_of_tsm_unused (c : Config) (h : usesTsm cmd.variant = false) (x : Option HV) :
    validate c { cmd with tsm := x } = validate c cmd := by
  simp only [validate, h, suppliedInt]

theorem validate_of_cs_unused (c : Config) (h : usesCs cmd.variant = false) (x : Option HV) :
    validate c { cmd with cs := x } = validate c cmd := by
  simp only [validate, h, suppliedInt]

/-- Validation is all that a step makes of a command. -/
theorem step_start_congr {cmd' : Command} (h : validate cfg cmd = validate cfg cmd') (s : State)
    (rest : List HostAction) :
    step { s with host := .start cmd :: rest } = step { s with host := .start cmd' :: rest } := by
  have hstart (u : State) : startStep cfg cmd u = startStep cfg cmd' u := by simp only [startStep, h]
  rcases quiescent_or_busy s.phase with hq | hbusy
  · rw [step_host_start hq, step_host_start hq, hstart]
  · rw [step_host_busy (by simp) hbusy, step_host_busy (by simp) hbusy]

/-- Variant 0 uses neither parameter, so a byte preimage is all that the type tests ask of it (R186, R189). -/
theorem not_typeFault_of_noVariant {p : Bytes} (hvariant : cmd.variant = .noVariant) (hpre : cmd.pre = .bytes p) :
    ¬ TypeFault cmd := by
  rw [typeFault_iff]
  simp [hvariant, hpre, HV.asBytes, usesCs, usesTsm, suppliedInt]

/-! ### The harness -/

/-- A table word that is not refused is the value of the word its instruction decodes from (R91). -/
theorem decodeTableWord_eq_some {nbits w : Nat} {i : Instr} (h : decodeTableWord nbits w = some i) :
    w % 2 ^ nbits < 2 ^ (defaultAddrWidth + 4) ∧ decodeStored defaultAddrWidth (w % 2 ^ nbits) = i := by
  rw [decodeTableWord] at h
  rcases Nat.lt_or_ge (w % 2 ^ nbits) (2 ^ (defaultAddrWidth + 4)) with hlt | hge
  · rw [decodeNumber_of_lt hlt] at h
    exact ⟨hlt, Option.some.inj h⟩
  · rw [decodeNumber_of_ge hge] at h
    cases h

theorem placeWord_getElem? (prog : List Nat) (pc w : Nat) : (placeWord prog pc w)[pc]? = some w := by
  rw [placeWord, List.getElem?_set_self (by simp only [List.length_append, List.length_replicate]; omega)]

end

/-! ### The statements about one step -/

/-- Settles O16: the three ways an instruction step ends, and the stepped tape read byte by byte. -/
theorem instructionStepTransformsThenRotatesByTheSchedule :
    Obligations.InstructionStepTransformsThenRotatesByTheSchedule := by
  intro c i s
  refine ⟨instructionStep_operandOutOfBounds c _ _, fun ha => ⟨fun hamount => ?_, fun n hamount hn => ?_⟩⟩
  · refine instructionStep_amountOutOfBounds c _ _ ?_
    rintro ⟨hlo, hhi⟩
    omega
  · exact ⟨_, instructionStep_completes c _ _ ha hn hamount, rfl, steppedTape_len ..,
      fun j hj => memRead_steppedTape _ ha hn hj⟩

/-- Settles O29: the command is accepted, and its faults determine what validation answers. -/
theorem startValidatesThenLatches : Obligations.StartValidatesThenLatches := by
  intro s cmd hq hcmd
  rw [step_start hq hcmd]
  refine ⟨fun ht => ?_, fun ht hv => ?_, fun ht hv => ?_⟩
  · rw [startStep_error (validate_typeFault ht)]; rfl
  · rw [startStep_error (validate_valueFault ht hv)]; rfl
  · obtain ⟨l, hl, hpre, hvariant, hcs, htsm⟩ := validate_noFault cfg_legal ht hv
    refine ⟨l.pre, l.codeSize, l.tsm, hpre, hcs, htsm, ?_⟩
    rw [startStep_ok hl, ← hvariant]; rfl

/-- Settles O31: each transition that a step can be is a row of the table. -/
theorem phaseTransitionsAreThoseOfTheTable : Obligations.PhaseTransitionsAreThoseOfTheTable := by
  intro s t h hacts
  rcases step_cases h with
    ⟨hr, rfl⟩ | ⟨hr, hq, cmd, hcmd, rfl⟩ | ⟨hr, hq, hno, _⟩ | ⟨hr, hp, rfl⟩ | ⟨hr, hp, hpc, w, _, he⟩ |
    ⟨hr, hp, hpc, rfl⟩
  · exact .inl ⟨hr, rfl⟩
  · exact .inr ⟨hr, .inl ⟨cmd, hcmd, of_quiescent hq, startStep_phase cfg_legal cmd _⟩⟩
  · rcases hacts (of_quiescent hq) with hreset | ⟨cmd, hcmd⟩
    · exact absurd hreset hr
    · exact absurd hcmd (hno cmd)
  · rcases generationStep_cases cfg (hostTaken s) with ⟨hlen, he⟩ | ⟨hlen, he⟩
    · rw [he]; exact .inr ⟨hr, .inr (.inr (.inl ⟨hp, hlen, rfl, rfl⟩))⟩
    · rw [he]; exact .inr ⟨hr, .inr (.inl ⟨hp, hlen, rfl⟩)⟩
  · rcases exec_eq_next he with ⟨_, m, rfl, _⟩ | rfl
    · exact .inr ⟨hr, .inr (.inr (.inr (.inl ⟨hp, hpc, hp⟩)))⟩
    · exact .inr ⟨hr, .inr (.inr (.inr (.inr (.inl ⟨hp, hpc, rfl, rfl⟩))))⟩
  · exact .inr ⟨hr, .inr (.inr (.inr (.inr (.inr ⟨hp, hpc, rfl⟩))))⟩

/-- Settles O32: of the transitions that begin in `RUN` only a completed instruction ends there. -/
theorem runStepsAdvanceTheCounterAndKeepTheProgram : Obligations.RunStepsAdvanceTheCounterAndKeepTheProgram := by
  intro s t hp h hrun
  rcases step_cases h with
    ⟨_, rfl⟩ | ⟨_, hq, _⟩ | ⟨_, hq, _⟩ | ⟨_, hgen, _⟩ | ⟨_, _, hpc, w, _, he⟩ | ⟨_, _, _, rfl⟩
  · cases hrun
  · rw [hp] at hq; cases hq
  · rw [hp] at hq; cases hq
  · rw [hp] at hgen; cases hgen
  · rcases exec_eq_next he with ⟨_, m, rfl, hlen, _⟩ | rfl
    · exact ⟨rfl, hlen, hpc⟩
    · cases hrun
  · cases hrun

/-- Settles O26: the fetched word is the instruction's, and an instruction always answers a next state. -/
theorem aStepRunsTheDecodedInstruction : Obligations.AStepRunsTheDecodedInstruction := by
  intro s hp hpc hr
  refine ⟨fun w hw => step_instruction hp hpc hr hw, fun i hi hw => ?_, fun hlen => ?_⟩
  · rw [step_instruction hp hpc hr hw, decodeStored_toNat, decode_encode hi]; rfl
  · have hw : s.prog[s.pc]? = some s.prog[s.pc] := List.getElem?_eq_getElem (hlen ▸ hpc)
    obtain ⟨t, ht⟩ := exec_isNext (decodeStored cfg.addrWidth s.prog[s.pc]) (hostTaken s)
    exact ⟨_, t, hw, (step_instruction hp hpc hr hw).trans ht⟩

/-- Settles O27: the placed word is the one fetched, and the harness leaves no host action to take. -/
theorem aWordPlacedForFetchIsTheNextInstruction : Obligations.AWordPlacedForFetchIsTheNextInstruction := by
  intro s nbits w i h
  obtain ⟨hlt, hdecode⟩ := decodeTableWord_eq_some h
  have hfetch : (s.withFetchWord nbits w).prog[(s.withFetchWord nbits w).pc]? = some (w % 2 ^ nbits) := by
    rw [State.withFetchWord, Nat.mod_eq_of_lt hlt]
    exact placeWord_getElem? s.prog s.pc _
  have hpc : (s.withFetchWord nbits w).pc < (s.withFetchWord nbits w).codeSize := Nat.le_max_right _ _
  rw [step_instruction rfl hpc (by simp [State.withFetchWord, hostNow]) hfetch, cfg_addrWidth]
  exact congrArg (exec · _) hdecode

/-- Settles O28: a quiescent phase accepts the command; a busy one takes its own step whatever the action. -/
theorem commandsAreAcceptedOnlyInQuiescentPhases : Obligations.CommandsAreAcceptedOnlyInQuiescentPhases := by
  intro s action rest
  refine ⟨?_, fun haction hbusy => ?_⟩
  · rintro cmd rfl hq
    exact step_host_start hq rest
  · rw [step_host_busy haction hbusy, step_host_busy (by simp) hbusy]

/-- Settles O30: validation does not look at an unused argument, and variant 0 is a value fault. -/
theorem unusedArgumentsHaveNoEffect : Obligations.UnusedArgumentsHaveNoEffect := by
  intro s cmd x rest
  refine ⟨fun hvariant => ?_, fun hvariant => ?_, fun p hvariant hpre hq => ?_⟩
  · exact step_start_congr (validate_of_tsm_unused cfg (by rw [hvariant]; rfl) x) s rest
  · exact step_start_congr (validate_of_cs_unused cfg (by rw [hvariant]; rfl) x) s rest
  · rw [step_host_start hq,
      startStep_error (validate_valueFault (not_typeFault_of_noVariant hvariant hpre) (.inl hvariant)),
      raise_clearForStart]

/-- Settles O37: without a command a quiescent step idles; out of `ERROR` leads nothing but reset and `START`. -/
theorem quiescentPhasesWaitForTheHost : Obligations.QuiescentPhasesWaitForTheHost := by
  refine ⟨fun s hq hr hno => ?_, fun s t hp h hleft => ?_⟩
  · rw [step, sequencer_advance hr hno]
    exact advance_quiescent (s := hostTaken s) (quiescent_of hq)
  · rcases step_cases h with
      ⟨hr, _⟩ | ⟨_, _, cmd, hcmd, rfl⟩ | ⟨_, _, _, rfl⟩ | ⟨_, hgen, _⟩ | ⟨_, hrun, _⟩ | ⟨_, hrun, _⟩
    · exact .inl hr
    · exact .inr ⟨cmd, hcmd, startStep_err hleft⟩
    · exact absurd hp hleft
    · rw [hp] at hgen; cases hgen
    · rw [hp] at hrun; cases hrun
    · rw [hp] at hrun; cases hrun

/-! ### The length of a run -/

/-- Settles O46: a run is busy before its length and ends there, in `DONE` where the value of `H` is a digest. -/
theorem runsEndAfterCodeSizePlusThreeSteps : Obligations.RunsEndAfterCodeSizePlusThreeSteps := by
  intro cmd s h
  refine ⟨fun k hk => ?_, fun l hl => ⟨fun n hn hlt => ?_, ?_⟩⟩
  · exact ⟨_, (core_run_iff_runsTo _ _ _).2 (runsTo_one (stepWith_start_error h hk)), rfl⟩
  · obtain ⟨u, hu, hbusy⟩ := runsTo_busy cfg_legal h hn (by rwa [runLength_ok hl])
    exact ⟨u, (core_run_iff_runsTo _ _ _).2 hu, hbusy⟩
  · obtain ⟨t, ht, hend⟩ := runsTo_end cfg_legal h
    rw [runLength_ok hl] at ht
    rw [hashFunction_ok cfg_legal hl] at hend
    exact ⟨t, (core_run_iff_runsTo _ _ _).2 ht, hend.1⟩

end Sys2Proof.Machine
end

section
/-! PROOFS. The digest: finalization writes it (R197, R211, R212), and no other transition writes more than zeros
(R214). -/

namespace Sys2Proof.Machine

section

variable {s t : State}

/-- In `RUN` with `PC` at the end of the program a step without reset is the finalization step (R197). -/
theorem step_finalization (hp : s.phase = .run) (hpc : s.pc = s.codeSize) (hr : hostNow s ≠ .reset) :
    step s = .next (finalizationStep cfg (hostTaken s)) := by
  rw [step_busy hr (.inr hp), advance_finalization (s := hostTaken s) hp hpc]

/-! ### What the other transitions do to the digest -/

/-- An accepted command clears the digest, whatever its faults (R186). -/
theorem startStep_clearsDigest (c : Config) (cmd : Command) (s : State) :
    (startStep c cmd s).digest = zeroDigest ∧ (startStep c cmd s).dvalid = false := by
  cases hv : validate c cmd with
  | error k => rw [startStep_error hv]; exact ⟨raise_digest k _, raise_dvalid k _⟩
  | ok l => rw [startStep_ok hv]; exact ⟨clearForStart_digest s, clearForStart_dvalid s⟩

/-- The generation step keeps the digest, or clears it by the error sequence (R160, R190). -/
theorem generationStep_keepsOrClearsDigest (c : Config) (s : State) :
    ((generationStep c s).digest = s.digest ∧ (generationStep c s).dvalid = s.dvalid) ∨
    ((generationStep c s).digest = zeroDigest ∧ (generationStep c s).dvalid = false) := by
  rcases generationStep_cases c s with ⟨_, he⟩ | ⟨_, he⟩
  · rw [he]; exact .inr ⟨raise_digest _ s, raise_dvalid _ s⟩
  · rw [he]; exact .inl ⟨loadGenerated_digest c _ s, loadGenerated_dvalid c _ s⟩

/-- An instruction keeps the digest, or clears it by the error sequence (R195, R226). -/
theorem exec_keepsOrClearsDigest {i : Instr} (h : exec i s = .next t) :
    (t.digest = s.digest ∧ t.dvalid = s.dvalid) ∨ (t.digest = zeroDigest ∧ t.dvalid = false) := by
  rcases exec_eq_next h with ⟨_, m, rfl, _⟩ | rfl
  · exact .inl ⟨completeInstruction_digest m s, completeInstruction_dvalid m s⟩
  · exact .inr ⟨raise_digest _ s, raise_dvalid _ s⟩

end

/-! ### The statements of the family -/

/-- Settles O33: the step is the finalization step, and its bytes of the tape read as the tape does. -/
theorem finalizationWritesTheDigestOfTheWholeTape : Obligations.FinalizationWritesTheDigestOfTheWholeTape := by
  intro s hp hpc hr
  exact ⟨memBytes s.tape, memBytes_length s.tape, memBytes_getElem? s.tape, step_finalization hp hpc hr,
    cfg_finalize _⟩

/-- Settles O35: of the transitions a step can be, only finalization writes a digest; the others keep or clear it. -/
theorem digestIsWrittenOnlyByFinalization : Obligations.DigestIsWrittenOnlyByFinalization := by
  intro s t h
  rcases step_cases h with
    ⟨_, rfl⟩ | ⟨_, _, cmd, _, rfl⟩ | ⟨_, _, _, rfl⟩ | ⟨_, _, rfl⟩ | ⟨_, _, _, w, _, he⟩ | ⟨_, hp, hpc, rfl⟩
  · exact .inr (.inl ⟨resetBlock_digest _, resetBlock_dvalid _⟩)
  · exact .inr (.inl (startStep_clearsDigest cfg cmd _))
  · exact .inl ⟨hostTaken_digest s, hostTaken_dvalid s⟩
  · exact (generationStep_keepsOrClearsDigest cfg (hostTaken s)).imp_right .inl
  · exact (exec_keepsOrClearsDigest he).imp_right .inl
  · exact .inr (.inr ⟨hp, hpc, finalizationStep_digest cfg _, finalizationStep_dvalid cfg _,
      finalizationStep_phase cfg _⟩)

end Sys2Proof.Machine
end

section
/-! PROOFS. Errors and progress: what a step that raises leaves behind (R224, R226), and that no state of the invariant
stops the machine (R220). -/

namespace Sys2Proof.Machine

section

variable {s t : State}

/-! ### Steps that raise -/

/-- `ERR` has no other cause to record than the two kinds of error (R221, R222). -/
theorem ErrKind.cause_eq_type_or_value (k : ErrKind) : k.cause = .type ∨ k.cause = .value := by
  cases k with
  | typeError => exact .inl rfl
  | valueError => exact .inr rfl

/-- A step that raises an error is the error sequence from the state before it, whichever unit raised (R226). -/
theorem step_raises (h : step s = .next t) (herror : t.phase = .error)
    (hnew : s.phase ≠ .error ∨ ∃ cmd, hostNow s = .start cmd) : ∃ k, t = raise k (hostTaken s) := by
  rcases step_ends_cases h (.inr herror) (by rwa [herror]) with hraise | rfl
  · exact hraise
  · cases herror

/-! ### Progress -/

/-- In a quiescent phase every host action has its next state, the idle step among them (R181, R185, R250). -/
theorem step_isNext_of_quiescent (hq : s.phase = .idle ∨ s.phase = .done ∨ s.phase = .error)
    (hr : hostNow s ≠ .reset) : ∃ t, step s = .next t := by
  by_cases hcmd : ∃ cmd, hostNow s = .start cmd
  · obtain ⟨cmd, hcmd⟩ := hcmd
    exact ⟨_, step_start hq hcmd⟩
  · exact ⟨_, quiescentPhasesWaitForTheHost.1 s hq hr (not_exists.1 hcmd)⟩

/-- In `RUN` neither fault of the sequencer can be raised: `PC` is not past the program's end, and before its end the
program holds a word at `PC` (R41, R192, log entry 8). -/
theorem step_isNext_of_runReady (ready : RunReady cfg s) (hp : s.phase = .run) (hr : hostNow s ≠ .reset) :
    ∃ t, step s = .next t := by
  rcases ready.counter.lt_or_eq with hlt | heq
  · obtain ⟨_, _, hfetched⟩ := aStepRunsTheDecodedInstruction s hp hlt hr
    obtain ⟨_, t, _, ht⟩ := hfetched ready.program
    exact ⟨t, ht⟩
  · exact ⟨_, step_finalization hp heq hr⟩

end

/-! ### The statements of the family -/

/-- Settles O36: a step that raises is `raise` of one of the two kinds, and `raise` writes just these elements. -/
theorem errorSequenceWritesTheStatusAndEmptiesTheBuffers :
    Obligations.ErrorSequenceWritesTheStatusAndEmptiesTheBuffers := by
  refine ⟨fun s t h herror hnew => ?_, fun s => ⟨rfl, rfl⟩⟩
  obtain ⟨k, rfl⟩ := step_raises h herror hnew
  exact ⟨k.cause_eq_type_or_value, rfl⟩

/-- Settles O43: reset, the quiescent phases and generation never stop, and `RUN` does not by what R41 says of it. -/
theorem invariantStatesNeverStop : Obligations.InvariantStatesNeverStop := by
  intro s h
  by_cases hr : hostNow s = .reset
  · exact ⟨_, sequencer_reset hr⟩
  rcases quiescent_or_busy s.phase with hq | hgen | hrun
  · exact step_isNext_of_quiescent hq hr
  · exact ⟨_, (step_eq_stepWith s).trans (stepWith_gen hgen hr)⟩
  · obtain ⟨_, ready⟩ := h.running hrun
    exact step_isNext_of_runReady ready hrun hr

/-- Settles O18: the bounds test comes first whatever the opcode, and the error sequence is written out. -/
theorem anOperandOutsideTheTapeTakesTheErrorSequence :
    Obligations.AnOperandOutsideTheTapeTakesTheErrorSequence := fun _ _ h => exec_operandOutOfBounds h

end Sys2Proof.Machine
end

section
/-! PROOFS. Reset gives every element the value of its row in the table (R45, R250). -/

namespace Sys2Proof.Machine

/-- Settles O38: a reset step is `resetBlock`, whose fields are those of R45, and the registers read them as zeros. -/
theorem resetGivesEveryElementItsResetValue : Obligations.ResetGivesEveryElementItsResetValue := by
  intro s hreset
  obtain ⟨_, _, _, hdigest⟩ := digestRegistersAreBigEndianWords
  exact ⟨sequencer_reset hreset, rfl, hdigest, rfl⟩

end Sys2Proof.Machine
end

section
/-! PROOFS. Rotation of the tape: its laws, which are the library's laws of `List.rotate` on the tape's bytes (R142),
and what the default schedule makes of a completed step (R145). -/

namespace Sys2Proof.Machine

section

variable {m m' : Memory}

/-! ### The laws of rotation (R142) -/

/-- A canonical store is determined by the bytes it stands for. -/
theorem memory_eq_of_memBytes_eq (hm : m.wf) (hm' : m'.wf) (h : memBytes m = memBytes m') : m = m' := by
  have hlen : m.len = m'.len := by rw [← memBytes_length m, h, memBytes_length]
  exact memory_ext hm hm' hlen fun j => by rw [← memBytes_getElem?, h, memBytes_getElem?]

/-- Rotation of a store is the library's rotation of its bytes (R141). -/
theorem memBytes_memRotl_eq_rotate {n : Nat} (hn : n < m.len) : memBytes (memRotl m n) = (memBytes m).rotate n := by
  rw [memBytes_memRotl m hn, List.rotate_eq_drop_append_take (by simpa using hn.le)]

theorem memBytes_memRotl_perm {n : Nat} (hn : n < m.len) : (memBytes (memRotl m n)).Perm (memBytes m) := by
  rw [memBytes_memRotl_eq_rotate hn]
  exact List.rotate_perm _ n

theorem memRotl_zero (hm : m.wf) (hpos : 0 < m.len) : memRotl m 0 = m := by
  apply memory_eq_of_memBytes_eq (memRotl_wf hm hpos) hm
  rw [memBytes_memRotl_eq_rotate hpos, List.rotate_zero]

/-- Two rotations are one by the sum, which counts modulo the length. -/
theorem memRotl_memRotl (hm : m.wf) {a b : Nat} (ha : a < m.len) (hb : b < m.len) :
    memRotl (memRotl m a) b = memRotl m ((a + b) % m.len) := by
  have hsum : (a + b) % m.len < m.len := Nat.mod_lt _ (Nat.zero_lt_of_lt ha)
  apply memory_eq_of_memBytes_eq (memRotl_wf (memRotl_wf hm ha) hb) (memRotl_wf hm hsum)
  calc memBytes (memRotl (memRotl m a) b)
      = ((memBytes m).rotate a).rotate b := by
        rw [memBytes_memRotl_eq_rotate (m := memRotl m a) hb, memBytes_memRotl_eq_rotate ha]
    _ = (memBytes m).rotate ((a + b) % (memBytes m).length) := by rw [List.rotate_rotate, List.rotate_mod]
    _ = memBytes (memRotl m ((a + b) % m.len)) := by rw [memBytes_length, memBytes_memRotl_eq_rotate hsum]

/-- The rotations by `k` and by what is left of the length add up to none. -/
theorem memRotl_memRotl_sub (hm : m.wf) {k : Nat} (hk : 1 ≤ k) (hlt : k < m.len) :
    memRotl (memRotl m k) (m.len - k) = m := by
  have hsum : (k + (m.len - k)) % m.len = 0 := by rw [Nat.add_sub_cancel' hlt.le, Nat.mod_self]
  rw [memRotl_memRotl hm hlt (by omega), hsum, memRotl_zero hm (by omega)]

theorem rotateTape_len : rotateTape m m.len = .error .valueError :=
  rotateTape_outOfBounds fun hbounds => lt_irrefl _ hbounds.2

/-- The amounts with a rotation are those in bounds (R140). -/
theorem rotateTape_isOk_iff (m : Memory) (n : Int) : (∃ r, rotateTape m n = .ok r) ↔ IndexInBounds n m.len := by
  by_cases h : IndexInBounds n m.len
  · obtain ⟨k, rfl, hk⟩ := indexInBounds_nat h
    exact iff_of_true ⟨_, rotateTape_inBounds hk⟩ h
  · exact iff_of_false (by simp [rotateTape_outOfBounds h]) h

/-! ### A completed step under the default schedule (R145) -/

variable {f : Byte → Byte} {a : Nat} {s t : State}

theorem StepEffect.memRead_zero (h : StepEffect f a s t) (ha : a < s.tape.len) :
    memRead t.tape 0 = (memRead s.tape a).map f := by
  rw [h.bytes 0 (by omega), Nat.zero_add, if_pos (Nat.mod_eq_of_lt ha)]

/-- The byte of index 0 comes to stand behind the bytes from the operand on. -/
theorem StepEffect.memRead_len_sub (h : StepEffect f a s t) (ha : a < s.tape.len) (hpos : 0 < a) :
    memRead t.tape (s.tape.len - a) = memRead s.tape 0 := by
  rw [h.bytes _ (by omega), Nat.sub_add_cancel ha.le, Nat.mod_self, if_neg (by omega)]

theorem StepEffect.memRead_of_operand_zero (h : StepEffect f 0 s t) {j : Nat} (hj : j ≠ 0) :
    memRead t.tape j = memRead s.tape j := by
  rcases Nat.lt_or_ge j s.tape.len with hlt | hge
  · rw [h.bytes j hlt, Nat.add_zero, Nat.mod_eq_of_lt hlt, if_neg hj]
  · rw [memRead_of_ge (h.length.trans_le hge), memRead_of_ge hge]

end

/-! ### The statements of the family -/

/-- Settles O21: the laws of `List.rotate`, carried over by the bytes a canonical store stands for. -/
theorem rotationObeysItsLaws : Obligations.RotationObeysItsLaws := by
  intro m hm hpos
  have hzero := memRotl_zero hm hpos
  refine ⟨fun n hn => ⟨memRotl_len m n, memBytes_memRotl_perm hn⟩, hzero, fun a b => memRotl_memRotl hm,
    fun k hk hle => memRotl_memRotl_sub hm hk (by omega), by rw [hzero, hzero], rotateTape_len, fun hone n => ?_⟩
  rw [rotateTape_isOk_iff, hone]
  omega

/-- Settles O17: each clause is the common effect of an instruction, read at one index. -/
theorem defaultRotationBringsTheTransformedByteToTheFront :
    Obligations.DefaultRotationBringsTheTransformedByteToTheFront := by
  intro i s ha
  obtain ⟨completes, _⟩ := actsOnTape i s
  obtain ⟨t, ht, effect⟩ := completes ha
  refine ⟨t, ht, effect.memRead_zero ha, effect.memRead_len_sub ha, fun hzero j hj => ?_, fun hone => by omega⟩
  rw [hzero] at effect
  exact effect.memRead_of_operand_zero hj

end Sys2Proof.Machine
end

section
/-! PROOFS. Every state reached from reset meets the invariant, whatever the host does, and what it says of the status
elements and of phase `RUN` (R41, R183). -/

namespace Sys2Proof.Machine

section

variable {s : State}

/-- From a state of the invariant the machine runs for any number of steps, and stays in the invariant. -/
theorem core_run_inv (h : Inv cfg s) (n : Nat) : ∃ t, Sys2Proof.core.run n s = .next t ∧ Inv cfg t := by
  induction n generalizing s with
  | zero => exact ⟨s, rfl, h⟩
  | succ n ih =>
    obtain ⟨u, hu⟩ := invariantStatesNeverStop s h
    obtain ⟨t, ht, hinv⟩ := ih (everyStepKeepsTheInvariant s u h hu)
    have hstep : stepWith cfg s = .next u := (step_eq_stepWith s).symm.trans hu
    have hrun : RunsTo cfg n u t := (core_run_iff_runsTo n u t).1 ht
    exact ⟨t, (core_run_iff_runsTo _ _ _).2 (runsTo_cons hstep hrun), hinv⟩

theorem reachable_inv (actions : List HostAction) (n : Nat) :
    ∃ s, Sys2Proof.core.run n { State.reset with host := actions } = .next s ∧ Inv cfg s :=
  core_run_inv (inv_reset_withHost actions) n

/-- Only a phase that ends an invocation has an error or a digest (R183). -/
theorem Inv.statusClear_of_not_ended (h : Inv cfg s) (hp : s.phase = .idle ∨ s.phase = .gen ∨ s.phase = .run) :
    s.err = .none ∧ s.dvalid = false := by
  rcases hp with hidle | hbusy
  · have herror : s.phase ≠ .error := by simp [hidle]
    have hdone : s.phase ≠ .done := by simp [hidle]
    exact ⟨not_not.1 (mt h.errIff.2 herror), by simpa using mt h.doneIff.2 hdone⟩
  · exact h.statusClear hbusy

end

/-- Settles O44: the relations are those of the invariant. -/
theorem reachableStatusElementsAgree : Obligations.ReachableStatusElementsAgree := by
  intro actions n
  obtain ⟨s, hs, hinv⟩ := reachable_inv actions n
  exact ⟨s, hs, hinv.errIff, hinv.doneIff, hinv.statusClear_of_not_ended, hinv.noDigest⟩

/-- Settles O45: what the invariant says of `RUN`, where a word of the machine has 36 bits. -/
theorem reachableRunStatesMeetTheDataInvariants : Obligations.ReachableRunStatesMeetTheDataInvariants := by
  intro actions n
  obtain ⟨s, hs, hinv⟩ := reachable_inv actions n
  refine ⟨s, hs, fun hrun => ?_⟩
  obtain ⟨params, ready⟩ := hinv.running hrun
  exact ⟨params.codeSize.1, params.codeSize.2, params.tsm.1, params.tsm.2, ready.tapeLength, ready.positive,
    ready.tape, ready.program, ready.counter, fun w hw => ⟨ready.words w hw, opcode_lt _, ready.operands w hw⟩,
    hinv.statusClear (.inr hrun)⟩

end Sys2Proof.Machine
end

section
/-! PROOFS. A whole run computes `H` (R200), and nothing of what the block held before reaches it (R43). -/

namespace Sys2Proof.Machine

/-- Settles O47: a run is busy before its length and ends there with the value of `H`. -/
theorem aRunComputesTheHashFunction : Obligations.ARunComputesTheHashFunction := by
  intro c hc cmd s h
  obtain ⟨t, ht, hend⟩ := runsTo_end hc h
  exact ⟨runLength c cmd, t, runLength_pos c cmd, ht, hend, fun _ => runsTo_busy hc h⟩

section

variable {s s' : State}

theorem resetBlock_congr (hhost : s.host = s'.host) : resetBlock s = resetBlock s' := by
  simp only [resetBlock, hhost]

/-- Latch and generation between them write every element but the host's actions (R186, R188, R190). -/
theorem loadGenerated_latch_congr (hhost : s.host = s'.host) (c : Config) (stream : Bytes) (l : Latch) :
    loadGenerated c stream (hostTaken (latch l (clearForStart s))) =
      loadGenerated c stream (hostTaken (latch l (clearForStart s'))) := by
  simp only [loadGenerated, hostTaken, latch, clearForStart, emptyBuffers, hhost]

/-- A presented command that passes validation is latched in a quiescent phase (R185, R188). -/
theorem stepWith_latches {c : Config} {cmd : Command} {l : Latch}
    (hq : s.phase = .idle ∨ s.phase = .done ∨ s.phase = .error) (hcmd : hostNow s = .start cmd)
    (hl : validate c cmd = .ok l) : stepWith c s = .next (latch l (clearForStart (hostTaken s))) := by
  rw [stepWith, sequencer_start hcmd (quiescent_of hq), startStep_ok hl]

/-- The step after a latch, be it generation or a reset, leads to one state from any two that have the same host. -/
theorem stepWith_latch_congr {c : Config} (hc : c.Legal) {l : Latch} (htsm : ParamInRange l.tsm)
    (hhost : s.host = s'.host) :
    ∃ t, stepWith c (latch l (clearForStart s)) = .next t ∧ stepWith c (latch l (clearForStart s')) = .next t := by
  have hnow : hostNow (latch l (clearForStart s')) = hostNow (latch l (clearForStart s)) := by
    simp only [hostNow, latch_host, clearForStart_host, hhost]
  by_cases hr : hostNow (latch l (clearForStart s)) = .reset
  · refine ⟨_, sequencer_reset hr, ?_⟩
    rw [stepWith, sequencer_reset (hnow.trans hr)]
    exact congrArg _ (resetBlock_congr (by simp [hhost]))
  · refine ⟨_, stepWith_gen_loads hc rfl hr htsm, ?_⟩
    rw [stepWith_gen_loads hc rfl (hnow ▸ hr) htsm]
    exact congrArg _ (loadGenerated_latch_congr hhost c _ l).symm

end

/-- Settles O50: the accepted command and the step after it leave only what the command and the host determine. -/
theorem nothingSurvivesIntoTheNextInvocation : Obligations.NothingSurvivesIntoTheNextInvocation := by
  intro s s' cmd rest hq hq' hhost hhost' ht hv
  obtain ⟨l, hl, _⟩ := validate_noFault cfg_legal ht hv
  obtain ⟨_, _, _, _, htsm, _⟩ := validate_ok cfg_legal hl
  have hlatch := stepWith_latches hq (by simp [hostNow, hhost]) hl
  have hlatch' := stepWith_latches hq' (by simp [hostNow, hhost']) hl
  have htaken : (hostTaken s).host = (hostTaken s').host := by simp [hhost, hhost']
  obtain ⟨t, hstep, hstep'⟩ := stepWith_latch_congr cfg_legal htsm htaken
  exact ⟨t, (core_run_iff_runsTo _ _ _).2 (runsTo_cons hlatch (runsTo_one hstep)),
    (core_run_iff_runsTo _ _ _).2 (runsTo_cons hlatch' (runsTo_one hstep'))⟩

end Sys2Proof.Machine
end
